-- ==== Sys2Proof/Word.lean ====
section
/-! DEFINITION. The word of the engine: every cell, register, operand and immediate is one byte
(spec/00_scope.md R5, R6; spec/20_memory.md R28). -/

namespace Sys2Proof

/-- Eight bits, read as an unsigned number 0 to 255 everywhere (R6). -/
abbrev Byte := BitVec 8

/-- A register index that has passed the check of R44: 0 to 7 (R8). -/
abbrev RegIndex := Fin 8

/-- Text on the source's standard output, character by character (R21, R56). -/
abbrev Text := List Char

end Sys2Proof
end

