-- ==== Sys2Proof/Config.lean ====
section
/-! DEFINITION. The parameters of the engine, spec/00_scope.md R5: the names are the spec's, the
values the ones its table gives. `CELL_BITS` and `XLEN`, both 8, are the width of
`Byte`; `OPCODES` is `recognisedOpcodes` of Decode. Nothing is a free value: the spec leaves no value
open (spec/92_eei_decisions.md, "No point is left `OPEN`"). -/

namespace Sys2Proof.Config

/-- `MEM_SIZE`: number of memory cells; valid addresses are 0 to 255. -/
abbrev memSize : Nat := 256

/-- `NREGS`: number of general registers. -/
abbrev nRegs : Nat := 8

/-- `SP_REG`: the register that is the stack pointer (R10). -/
abbrev spReg : RegIndex := 7

/-- `SP_RESET`: reset value of register 7. -/
abbrev spReset : Byte := 255#8

/-- `SP_MOD`: modulus of the stack pointer arithmetic (R65). -/
abbrev spMod : Nat := 255

/-- `PC_RESET`: reset value of the program counter. -/
abbrev pcReset : Nat := 0

/-- `LOAD_BASE`: address of the first byte of the load image. -/
abbrev loadBase : Nat := 0

/-- `PC_MAX`: largest value a run can give the program counter; a fetch there faults (D7). -/
abbrev pcMax : Nat := 256

/-- `MEM_RESET`: what a cell holds that neither the loader nor a PUSH has written. 0x00 by the
spec's decision D9. UNVERIFIED (the source is silent), unsafe: log entry 9. -/
abbrev memReset : Byte := 0x00#8

/-- Length in bytes of the longest instruction (R39). -/
abbrev maxLength : Nat := 3

end Sys2Proof.Config
end

