-- ==== Sys2Proof/Syntax.lean ====
section
/-! DEFINITION. The instructions, one constructor per row of spec/opcode_table.json
(spec/30_encoding.md R42; the set is closed). -/

namespace Sys2Proof

/-- The six instructions. A register operand is the WHOLE operand byte (R40), checked against the
register file only when the instruction runs (R44), so an instruction term may carry an index of
8 or more; `Instr.wellFormed` says when it does not. -/
inductive Instr
  /-- HALT, format Z (R51). -/
  | halt
  /-- LOAD_IMMEDIATE reg, value, format RI (R54). -/
  | loadImmediate (reg value : Byte)
  /-- PRINT_REG reg, format R (R55). -/
  | printReg (reg : Byte)
  /-- MULTIPLY reg_a, reg_b, format RR (R62). -/
  | multiply (regA regB : Byte)
  /-- PUSH reg, format R (R66). -/
  | push (reg : Byte)
  /-- POP reg, format R (R67). -/
  | pop (reg : Byte)
deriving DecidableEq, Repr

end Sys2Proof
end

