-- ==== Sys2Proof/Decode.lean ====
section
/-! DEFINITION. Decoding and encoding (spec/30_encoding.md R39 to R46). There is ONE decoder,
`decodeFrom`, over any way of reading the k-th byte of an instruction; the machine gives it memory
at the program counter, `decode` gives it a list of bytes. -/

namespace Sys2Proof

/-! ## The opcode map (R42) -/

/-- HALT, `00000001`. -/
def opcodeHalt : Byte := 0x01#8

/-- LOAD_IMMEDIATE, `10000010`. -/
def opcodeLoadImmediate : Byte := 0x82#8

/-- PRINT_REG, `01000111`. -/
def opcodePrintReg : Byte := 0x47#8

/-- MULTIPLY, `10100010`. -/
def opcodeMultiply : Byte := 0xA2#8

/-- PUSH, `01000101`. -/
def opcodePush : Byte := 0x45#8

/-- POP, `01000110`. -/
def opcodePop : Byte := 0x46#8

/-- The closed set of R42. Every other byte is unrecognised as an opcode (R46). -/
def recognisedOpcodes : List Byte :=
  [opcodeHalt, opcodeLoadImmediate, opcodePrintReg, opcodeMultiply, opcodePush, opcodePop]

/-- Number of operand bytes of a recognised opcode (R39, R41); `none` for any other byte, which
"has no length at all". -/
def operandCount? (ir : Byte) : Option Nat :=
  if ir = opcodeHalt then some 0
  else if ir = opcodeLoadImmediate then some 2
  else if ir = opcodePrintReg then some 1
  else if ir = opcodeMultiply then some 2
  else if ir = opcodePush then some 1
  else if ir = opcodePop then some 1
  else none

/-! ## Decoding -/

/-- What one instruction fetch gives: an instruction, or an opcode byte that is none of the six
(R46). -/
inductive Decoded
  | instr (i : Instr)
  | unrecognised (ir : Byte)
deriving DecidableEq, Repr

/-- Decode by the whole opcode byte (R41), as in R48: `read k` reads the k-th byte of the
instruction. Only the operands the recognised opcode has are read, lowest first (R43, decision D8:
log entry 8), and the first read that fails ends the fetch. -/
def decodeFrom {ε : Type} (read : Nat → Except ε Byte) : Except ε Decoded := do
  let ir ← read 0
  if ir = opcodeHalt then
    .ok (.instr .halt)
  else if ir = opcodeLoadImmediate then do
    let a ← read 1
    let v ← read 2
    .ok (.instr (.loadImmediate a v))
  else if ir = opcodePrintReg then do
    let a ← read 1
    .ok (.instr (.printReg a))
  else if ir = opcodeMultiply then do
    let a ← read 1
    let b ← read 2
    .ok (.instr (.multiply a b))
  else if ir = opcodePush then do
    let a ← read 1
    .ok (.instr (.push a))
  else if ir = opcodePop then do
    let a ← read 1
    .ok (.instr (.pop a))
  else
    .ok (.unrecognised ir)

/-- Length in bytes, 1 + operand count (R39). -/
def Instr.length : Instr → Nat
  | .halt => 1
  | .loadImmediate _ _ => 3
  | .printReg _ => 2
  | .multiply _ _ => 3
  | .push _ => 2
  | .pop _ => 2

/-- Why a list of bytes is no instruction. -/
inductive DecodeError
  /-- Byte number `k` of the instruction is missing. -/
  | truncated (k : Nat)
  /-- The first byte is none of the six opcodes (R46). -/
  | unrecognised (ir : Byte)
deriving DecidableEq, Repr

/-- The k-th byte of a list, or its absence by name. -/
def byteOf (bytes : List Byte) (k : Nat) : Except DecodeError Byte :=
  match bytes[k]? with
  | some b => .ok b
  | none => .error (.truncated k)

/-- The first instruction of a list of bytes and the bytes after it; total, rejecting by name. -/
def decode (bytes : List Byte) : Except DecodeError (Instr × List Byte) :=
  match decodeFrom (byteOf bytes) with
  | .error e => .error e
  | .ok (.unrecognised ir) => .error (.unrecognised ir)
  | .ok (.instr i) => .ok (i, bytes.drop i.length)

/-! ## Encoding -/

/-- The bytes of an instruction in increasing address order (R28, R39). -/
def encode : Instr → List Byte
  | .halt => [opcodeHalt]
  | .loadImmediate reg value => [opcodeLoadImmediate, reg, value]
  | .printReg reg => [opcodePrintReg, reg]
  | .multiply regA regB => [opcodeMultiply, regA, regB]
  | .push reg => [opcodePush, reg]
  | .pop reg => [opcodePop, reg]

/-! ## The opcode table's numbering of bits -/

/-- The bytes of a table word: byte k is bits 8k+7..8k; bits from `nbits` up are 0, up to the
longest instruction. -/
def tableBytes (nbits w : Nat) : List Byte :=
  (List.range Config.maxLength).map fun k => BitVec.ofNat 8 (w % 2 ^ nbits / 2 ^ (8 * k))

/-- The instruction the decoder reads from a table word; `none` where it refuses. -/
def decodeTableWord (nbits w : Nat) : Option Instr :=
  match decode (tableBytes nbits w) with
  | .ok (i, _) => some i
  | .error _ => none

end Sys2Proof
end

