-- ==== Sys2Proof/Machine/State.lean ====
section
/-! DEFINITION. The state of the engine (spec/10_state.md R7: exactly five components), its value
after reset (R23), and the reasons a step can stop (spec/60_exceptions.md R71). -/

namespace Sys2Proof.Machine

/-- The run state (R16). -/
inductive RunState
  /-- `RUNNING`: the engine takes cycles. -/
  | running
  /-- `HALTED`: terminal, reached only by HALT (R51). -/
  | halted
  /-- `FAULTED`: terminal, reached only by a fatal fault (R79, decision D5: log entry 5). -/
  | faulted
deriving DecidableEq, Repr

/-- An event of the output stream (R21; typed events by decision D14: log entry 14). -/
inductive Event
  /-- `Print(v)`, appended by PRINT_REG (R55). -/
  | print (v : Byte)
  /-- `Unknown(op, addr)`, appended by each cycle that fetches an unrecognised opcode (R52). -/
  | unknown (op : Byte) (addr : Nat)
deriving DecidableEq, Repr

/-- Memory, as the list of the cells that differ from `Config.memReset`, addresses rising. -/
abbrev Memory := List Host.Cell

/-- The canonical form: addresses strictly rising, every address inside the array (R20), no entry
equal to what an unlisted address reads as. -/
abbrev Memory.wf (m : Memory) : Prop :=
  m.Pairwise (fun c d => c.1 < d.1) ∧ ∀ c ∈ m, c.1 < Config.memSize ∧ c.2 ≠ Config.memReset

/-- The five components of R7. The stack pointer is `x[7]`, no sixth component (R10, decision D2:
log entry 2). No clock and no counter, since the machine has no timing (spec/70_reset_and_hazards.md
R93). -/
structure State where
  /-- `x[0]` to `x[7]` (R8, R9). -/
  regs : Vector Byte 8
  /-- The program counter, an integer 0 to 256 that does not wrap (R13, R14, decision D7: log
  entry 7). -/
  pc : Nat
  /-- The run state (R16). -/
  run : RunState
  /-- The output stream, oldest event first (R21). -/
  out : List Event
  /-- `M[0]` to `M[255]` (R20). -/
  mem : Memory
deriving DecidableEq, Repr

/-- The machine after reset and before the load (R23, R85). -/
def State.reset : State where
  regs := (Vector.replicate 8 0#8).set Config.spReg Config.spReset
  pc := Config.pcReset
  run := .running
  out := []
  mem := []

/-- The selector of the ALU sub-operation (R57): symbolic; the source encodes none (decision D19:
log entry 17). -/
inductive AluOp
  /-- ADD (R58). No opcode selects it (R63). -/
  | add
  /-- MUL (R59). -/
  | mul
  /-- Any other requested operation (R60). -/
  | other (selector : Nat)
deriving DecidableEq, Repr

/-- The three fatal faults of R71, each with the info it records (R76). -/
inductive Cause
  /-- `AddressFault(a)` (R72): raised by `memRead` and `memWrite`, in a run only by an opcode or
  operand fetch at 256. Safe: the machine stops where the spec says the access is fatal. -/
  | addressFault (a : Nat)
  /-- `RegisterIndexFault(b)` (R73): raised by the register-operand check of LOAD_IMMEDIATE,
  PRINT_REG, MULTIPLY, PUSH, POP. Safe (decision D4: log entry 4). -/
  | registerIndexFault (b : Byte)
  /-- `UnsupportedOperation(op)` (R74): raised by `alu` only; no program reaches it. Safe. -/
  | unsupportedOperation (op : AluOp)
deriving DecidableEq, Repr

/-- How a step faults. -/
inductive Fault
  /-- A fatal fault (R79): its name and info, and the state it leaves, which is the state at the
  start of the cycle with `run = FAULTED`. Raised by `takeFault` alone. Safe (decision D5: log
  entry 5). -/
  | fatal (cause : Cause) (after : State)
deriving DecidableEq, Repr

/-- How a step is refused. -/
inductive Refusal
  /-- An instruction without a meaning yet: raised by no arm of this model. Safe. -/
  | notModelled (mnemonic : String)
  /-- The engine is HALTED or FAULTED and takes no step (R16, R48): raised by `takeNoStep` alone.
  Safe (DESIGN CHOICE: log entry 13). -/
  | stopped (run : RunState)
deriving DecidableEq, Repr

end Sys2Proof.Machine
end

