-- ==== Sys2Proof/Machine/Flags.lean ====
section
/-! DEFINITION. Flags: there are none. "The engine has no flags, no condition codes and no
predicates" (spec/10_state.md R17), and "an overflowing ALU result leaves no trace besides the
truncated value". What stands here is that truncation, which is all a result leaves. -/

namespace Sys2Proof.Machine

/-- The explicit narrowing `mod 256` of an exact result (spec/42_alu.md R61; decision D1: log
entry 1). The part above bit 7 is lost and recorded nowhere. -/
def narrow (exact : Nat) : Byte := BitVec.ofNat 8 exact

end Sys2Proof.Machine
end

