-- ==== Sys2Proof/Machine/Operands.lean ====
section
/-! DEFINITION. The operand forms (spec/30_encoding.md R40): a register index, the whole byte, and
the immediate of LOAD_IMMEDIATE, which is used as it stands. -/

namespace Sys2Proof.Machine

/-- The register-operand check `reg(b)` (R44): the whole byte is the index; 8 or more raises
`RegisterIndexFault(b)` (decision D4: log entry 4). -/
def reg (b : Byte) : Except Cause RegIndex :=
  if h : b.toNat < 8 then .ok ⟨b.toNat, h⟩ else .error (.registerIndexFault b)

/-- The immediate (R45): `zext_8(value) = value`. -/
def immediate (value : Byte) : Byte := value

end Sys2Proof.Machine
end

