-- ==== Sys2Proof/Machine/Ops.lean ====
section
/-! DEFINITION. The named operations over memory, registers, the program counter and the output
stream; the entry into a fatal fault; the fetch. -/

namespace Sys2Proof.Machine

/-! ## Memory (spec/20_memory.md) -/

/-- What cell `a` holds; an unlisted cell holds `MEM_RESET` (R23, decision D9: log entry 9). -/
def Memory.cell : Memory → Nat → Byte
  | [], _ => Config.memReset
  | (b, w) :: rest, a => if b = a then w else Memory.cell rest a

/-- `c` in front of `m`, unless it says what an unlisted cell says. -/
def Memory.put (c : Host.Cell) (m : Memory) : Memory :=
  if c.2 = Config.memReset then m else c :: m

/-- `m` with cell `a` holding `v`; keeps the canonical form. -/
def Memory.update : Memory → Nat → Byte → Memory
  | [], a, v => Memory.put (a, v) []
  | (b, w) :: rest, a, v =>
    if a < b then Memory.put (a, v) ((b, w) :: rest)
    else if a = b then Memory.put (a, v) rest
    else (b, w) :: Memory.update rest a v

/-- `MemRead(addr, 1)` (R27). Addresses are naturals: no negative one arises (R26, log entry 20). -/
def memRead (m : Memory) (addr : Nat) : Except Cause Byte :=
  if addr < Config.memSize then .ok (m.cell addr) else .error (.addressFault addr)

/-- `MemWrite(addr, 1, v)` (R27). -/
def memWrite (m : Memory) (addr : Nat) (v : Byte) : Except Cause Memory :=
  if addr < Config.memSize then .ok (m.update addr v) else .error (.addressFault addr)

/-- The state with its memory replaced. -/
def State.setMem (s : State) (m : Memory) : State := { s with mem := m }

/-- A data read of the state's memory. -/
def State.load (s : State) (addr : Nat) : Except Cause Byte := memRead s.mem addr

/-- A data write of the state's memory. -/
def State.store (s : State) (addr : Nat) (v : Byte) : Except Cause State := do
  let m ← memWrite s.mem addr v
  .ok (s.setMem m)

/-- The bytes written at rising addresses, each by `MemWrite`, the first failure ending it (R86). -/
def memWriteAll : List Byte → Nat → Memory → Except Cause Memory
  | [], _, m => .ok m
  | b :: bs, addr, m => do
    let m' ← memWrite m addr b
    memWriteAll bs (addr + 1) m'

/-! ## Registers, program counter, run state, output (spec/10_state.md) -/

/-- `x[i]` (R8: no register is hardwired). -/
def State.readReg (s : State) (i : RegIndex) : Byte := s.regs[i]

/-- `x[i] <- v` (R8, R9). -/
def State.writeReg (s : State) (i : RegIndex) (v : Byte) : State :=
  { s with regs := s.regs.set i v }

/-- The stack pointer, which is `x[7]` (R10, decision D2: log entry 2). -/
def State.sp (s : State) : Byte := s.readReg Config.spReg

/-- A write of the stack pointer, which is `x[7]` (R10). -/
def State.setSp (s : State) (v : Byte) : State := s.writeReg Config.spReg v

/-- The program counter moves past an instruction of `n` bytes, with no reduction (R14, R15). -/
def State.advance (s : State) (n : Nat) : State := { s with pc := s.pc + n }

/-- `out <- out ++ [e]` (R21). -/
def State.emit (s : State) (e : Event) : State := { s with out := s.out ++ [e] }

/-- `run <- r` (R16). -/
def State.setRun (s : State) (r : RunState) : State := { s with run := r }

/-! ## The fatal fault (spec/60_exceptions.md) -/

/-- Fatal fault entry (R79): everything keeps the value it had when the cycle started,
`run <- FAULTED`, and the fault outcome carries the name and info. There is no return (R80). -/
def takeFault (c : Cause) (s : State) : Host.Outcome State Fault Refusal :=
  .fault (.fatal c (s.setRun .faulted))

/-- An instruction's effect on `s` that may raise: a raise abandons it whole, so that every check
precedes every write (R79, decision D5: log entry 5). -/
def attempt (s : State) (effect : Except Cause State) : Host.Outcome State Fault Refusal :=
  match effect with
  | .ok t => .next t
  | .error c => takeFault c s

/-- A HALTED or FAULTED engine takes no step (R16, R48; DESIGN CHOICE, safe: log entry 13). -/
def takeNoStep (s : State) : Host.Outcome State Fault Refusal := .refused (.stopped s.run)

/-! ## Fetch (spec/30_encoding.md R43, R48) -/

/-- Opcode fetch and operand fetches from memory at `pc`, `pc+1`, `pc+2`, each range-checked. -/
def fetchDecode (s : State) : Except Cause Decoded :=
  decodeFrom fun k => memRead s.mem (s.pc + k)

/-- The bytes of `bytes` stored from `addr` up, those that fall outside the array dropped; only
`State.withFetchWord` uses it. -/
def storeBytes : List Byte → Nat → Memory → Memory
  | [], _, m => m
  | b :: bs, addr, m =>
    storeBytes bs (addr + 1) (if addr < Config.memSize then m.update addr b else m)

end Sys2Proof.Machine
end

