-- ==== Sys2Proof/Machine/Alu.lean ====
section
/-! DEFINITION. The ALU sub-block and MULTIPLY (spec/42_alu.md). -/

namespace Sys2Proof.Machine

/-- The exact unsigned sum, narrowed (R58, R61). -/
def aluSum (x y : Byte) : Byte := narrow (x.toNat + y.toNat)

/-- The exact unsigned product, narrowed: the low 8 bits (R59, R61). -/
def aluProduct (x y : Byte) : Byte := narrow (x.toNat * y.toNat)

/-- The ALU's one entry point `alu(op, a, b)` (R57): ADD (R58), MUL (R59), any other operation is
fatal (R60). -/
def alu (op : AluOp) (a b : RegIndex) (s : State) : Except Cause State :=
  match op with
  | .add => .ok (s.writeReg a (aluSum (s.readReg a) (s.readReg b)))
  | .mul => .ok (s.writeReg a (aluProduct (s.readReg a) (s.readReg b)))
  | .other n => .error (.unsupportedOperation (.other n))

/-- MULTIPLY reg_a, reg_b (R62): `alu(MUL, ra, rb); pc <- pc + 3`; `reg_a` is checked first. -/
def execMultiply (bA bB : Byte) (s : State) : Host.Outcome State Fault Refusal :=
  attempt s do
    let ra ← reg bA
    let rb ← reg bB
    let t ← alu .mul ra rb s
    .ok (t.advance 3)

end Sys2Proof.Machine
end

