-- ==== Sys2Proof/Machine/MoveIo.lean ====
section
/-! DEFINITION. LOAD_IMMEDIATE, PRINT_REG and the text of the output events
(spec/41_move_io.md; spec/40_system.md R52). -/

namespace Sys2Proof.Machine

/-- LOAD_IMMEDIATE reg, value (R54): `x[a] <- v; pc <- pc + 3`. -/
def execLoadImmediate (b value : Byte) (s : State) : Host.Outcome State Fault Refusal :=
  attempt s do
    let a ← reg b
    .ok ((s.writeReg a (immediate value)).advance 3)

/-- PRINT_REG reg (R55): `out <- out ++ [Print(x[a])]; pc <- pc + 2`. -/
def execPrintReg (b : Byte) (s : State) : Host.Outcome State Fault Refusal :=
  attempt s do
    let a ← reg b
    .ok ((s.emit (.print (s.readReg a))).advance 2)

/-- `dec(v)`: the shortest decimal numeral (R56, decision D12: log entry 11). -/
def dec (n : Nat) : Text := Nat.toDigits 10 n

/-- The words of the unknown-instruction report before the opcode (R52). -/
def reportWords : Text := "unknown instruction ".toList

/-- The words of the unknown-instruction report between opcode and address (R52). -/
def addressWords : Text := " at address ".toList

/-- The line an event is on the source's standard output, its newline included (R52, R56; decisions
D11, D12: log entry 11). -/
def Event.text : Event → Text
  | .print v => dec v.toNat ++ ['\n']
  | .unknown op addr => reportWords ++ dec op.toNat ++ addressWords ++ dec addr ++ ['\n']

/-- The text of an output stream, one line an event, in order (R21). -/
def outputText (out : List Event) : Text := out.flatMap Event.text

end Sys2Proof.Machine
end

