-- ==== Sys2Proof/Machine/Stack.lean ====
section
/-! DEFINITION. The stack pointer logic, PUSH and POP (spec/43_stack.md). -/

namespace Sys2Proof.Machine

/-- `sp_dec(s) = (s - 1) mod 255`, the floor modulus, computed on the integers (R65). -/
def spDec (s : Byte) : Byte := narrow (((s.toNat : Int) - 1) % (Config.spMod : Int)).toNat

/-- `sp_inc(s) = (s + 1) mod 255` (R65). -/
def spInc (s : Byte) : Byte := narrow ((s.toNat + 1) % Config.spMod)

/-- The address PUSH stores to: the pointer after its decrement (R66). -/
def pushAddress (s : State) : Nat := (spDec s.sp).toNat

/-- The address POP reads from: the pointer before its increment (R67). -/
def popAddress (s : State) : Nat := s.sp.toNat

/-- PUSH reg (R66): the pointer moves down, then `x[a]`, read as it is NOW, is stored at the new
pointer. `PUSH r7` stores the new pointer (decision D2: log entry 2). -/
def execPush (b : Byte) (s : State) : Host.Outcome State Fault Refusal :=
  attempt s do
    let a ← reg b
    let s₁ := s.setSp (spDec s.sp)
    let s₂ ← s₁.store (pushAddress s) (s₁.readReg a)
    .ok (s₂.advance 2)

/-- POP reg (R67): read at the old pointer, write the register, then move the pointer up from what
it is NOW. `POP r7` leaves the popped byte incremented (decision D2: log entry 2). -/
def execPop (b : Byte) (s : State) : Host.Outcome State Fault Refusal :=
  attempt s do
    let a ← reg b
    let v ← s.load (popAddress s)
    let s₁ := s.writeReg a v
    let s₂ := s₁.setSp (spInc s₁.sp)
    .ok (s₂.advance 2)

end Sys2Proof.Machine
end

