-- ==== Sys2Proof/Machine/System.lean ====
section
/-! DEFINITION. HALT and the unrecognised opcode (spec/40_system.md). -/

namespace Sys2Proof.Machine

/-- HALT (R51): `run <- HALTED`; `pc` stays at the HALT byte (decision D10: log entry 10). -/
def execHalt (s : State) : Host.Outcome State Fault Refusal := .next (s.setRun .halted)

/-- The unrecognised opcode (R52): one report, no advance, no halt, not a fault (decisions D3, D11:
log entry 3). -/
def execUnrecognised (ir : Byte) (s : State) : Host.Outcome State Fault Refusal :=
  .next (s.emit (.unknown ir s.pc))

end Sys2Proof.Machine
end

