-- ==== Sys2Proof/Machine/Step.lean ====
section
/-! DEFINITION. One step: one whole fetch-decode-execute cycle (spec/30_encoding.md R48). -/

namespace Sys2Proof.Machine

/-- `step()` (R48), taken only while `run = RUNNING`. One instruction is one step: all of the cycle,
fetch to effects, is in this one call, and there is no duration (R93, log entry 19). -/
def step (s : State) : Host.Outcome State Fault Refusal :=
  match s.run with
  | .running =>
    match fetchDecode s with
    | .error c => takeFault c s
    | .ok (.unrecognised ir) => execUnrecognised ir s
    | .ok (.instr i) => exec i s
  | .halted => takeNoStep s
  | .faulted => takeNoStep s

/-- `s` with the instruction of a table word stored where `step` fetches next, at `pc`; it stands for
the load of a program from outside (R86; log entry 16). -/
def State.withFetchWord (s : State) (nbits w : Nat) : State :=
  s.setMem (storeBytes (tableBytes nbits w) s.pc s.mem)

end Sys2Proof.Machine
end

