-- ==== Sys2Proof/Machine/Load.lean ====
section
/-! DEFINITION. What the host does before the run: reset and load (spec/70_reset_and_hazards.md R85
to R88, R91). -/

namespace Sys2Proof.Machine

/-- Reset: one kind, no state survives it, and it is the only way out of HALTED and FAULTED (R85,
decision D20: log entry 18). -/
def hostReset (_ : State) : State := State.reset

/-- The load of an image (R86): its bytes from `LOAD_BASE` up, nothing else touched. An image of
more than 256 bytes fails at address 256 (R87). -/
def load (image : List Byte) (s : State) : Except Cause State := do
  let m ← memWriteAll image Config.loadBase s.mem
  .ok (s.setMem m)

/-- The launch state (R88): reset, then load. -/
def launch (image : List Byte) (s : State) : Except Cause State := load image (hostReset s)

end Sys2Proof.Machine
end

