-- ==== Sys2Proof/Machine/Trace.lean ====
section
/-! DEFINITION. The diagnostic trace (spec/60_exceptions.md R83): an observation of the state at the
start of a cycle, no part of the step (decision D13: log entry 12). -/

namespace Sys2Proof.Machine

/-- One hexadecimal digit, uppercase. -/
def hexDigit (n : Nat) : Char := (Nat.digitChar n).toUpper

/-- A byte as two-digit uppercase hexadecimal (R83). -/
def hexByte (b : Byte) : Text := [hexDigit (b.toNat / 16), hexDigit (b.toNat % 16)]

/-- The twelve values of one trace line in order: `pc`, `M[pc]`, `M[pc+1]`, `M[pc+2]`, `x[0]` to
`x[7]`. A byte above address 255 is absent, and so is a `pc` that does not fit two digits; the
source gives no separators, so the line is the list of its values. -/
def traceSnapshot (s : State) : List (Option Byte) :=
  (if s.pc < 256 then some (BitVec.ofNat 8 s.pc) else none) ::
    ((List.range 3).map fun k => (memRead s.mem (s.pc + k)).toOption) ++
    s.regs.toList.map some

/-- The values of one trace line as text. -/
def traceTexts (s : State) : List (Option Text) := (traceSnapshot s).map (Option.map hexByte)

end Sys2Proof.Machine
end

