-- ==== Sys2Proof/WellFormed.lean ====
section
/-! DEFINITION. Which instruction terms name only registers that exist (spec/30_encoding.md R40,
R44: legal register operands are 0 to 7; the immediate may be any byte, R45). -/

namespace Sys2Proof

/-- Whether an operand byte names a register (R44: `0 <= b <= 7`). -/
def namesRegister (b : Byte) : Bool := b.toNat < Config.nRegs

/-- The register operands of an instruction, in the order in which they are checked (R48). -/
def Instr.registerOperands : Instr → List Byte
  | .halt => []
  | .loadImmediate reg _ => [reg]
  | .printReg reg => [reg]
  | .multiply regA regB => [regA, regB]
  | .push reg => [reg]
  | .pop reg => [reg]

/-- Every register operand names a register. -/
def Instr.wellFormed (i : Instr) : Bool := i.registerOperands.all namesRegister

end Sys2Proof
end

