-- ==== Sys2Proof/Safety.lean ====
section
/-! DEFINITION. The terms claims are made in: the invariant of the machine, final and stuck states,
runs, which registers an instruction writes, which fault a cycle meets first. -/

namespace Sys2Proof

/-- The register an instruction writes when it completes, from the table of spec/10_state.md R12. -/
abbrev Instr.writes (i : Instr) (r : RegIndex) : Prop :=
  match i with
  | .halt => False
  | .loadImmediate b _ => b.toNat = r.val
  | .printReg _ => False
  | .multiply bA _ => bA.toNat = r.val
  | .push _ => r = Config.spReg
  | .pop b => b.toNat = r.val ∨ r = Config.spReg

end Sys2Proof

namespace Sys2Proof.Machine

/-- An output event a run can emit: the address of a report is an address (spec/10_state.md R21). -/
def Event.legal : Event → Bool
  | .print _ => true
  | .unknown _ addr => decide (addr < Config.memSize)

/-- The invariant of the machine: memory in canonical form (R20), the program counter 0 to 256
(R14), every event legal (R21). -/
abbrev State.Inv (s : State) : Prop :=
  s.mem.wf ∧ s.pc ≤ Config.pcMax ∧ ∀ e ∈ s.out, e.legal

/-- The only final states are the halted ones (spec/70_reset_and_hazards.md R89). -/
abbrev State.Final (s : State) : Prop := s.run = .halted

/-- The engine is at an opcode byte that is none of the six: the livelock (spec/40_system.md R53). -/
abbrev State.AtUnrecognised (s : State) : Prop :=
  s.run = .running ∧ s.pc < Config.memSize ∧ s.mem.cell s.pc ∉ recognisedOpcodes

/-- `k` steps of the machine, stopping at the first fault or refusal. -/
def runFor : Nat → State → Host.Outcome State Fault Refusal
  | 0, s => .next s
  | k + 1, s =>
    match step s with
    | .next t => runFor k t
    | .fault r => .fault r
    | .refused r => .refused r

/-- `k` executions of one instruction, each on the state the one before left; the stack logic alone,
no fetch (spec/43_stack.md R70). -/
def execTimes (i : Instr) : Nat → State → Host.Outcome State Fault Refusal
  | 0, s => .next s
  | k + 1, s =>
    match exec i s with
    | .next t => execTimes i k t
    | .fault r => .fault r
    | .refused r => .refused r

/-- The operand bytes of the instruction at `pc` that are register operands, in the order they are
checked (spec/30_encoding.md R39, R48), read off the opcode byte. -/
def State.registerBytes (s : State) : List Byte :=
  let ir := s.mem.cell s.pc
  if ir = 0xA2#8 then [s.mem.cell (s.pc + 1), s.mem.cell (s.pc + 2)]
  else if ir = 0x82#8 ∨ ir = 0x47#8 ∨ ir = 0x45#8 ∨ ir = 0x46#8 then [s.mem.cell (s.pc + 1)]
  else []

/-- The number of operand bytes of the opcode byte at `pc`, 0 for an unrecognised one, which reads
none (spec/30_encoding.md R39, R43). -/
def State.operandBytes (s : State) : Nat :=
  let ir := s.mem.cell s.pc
  if ir = 0x82#8 ∨ ir = 0xA2#8 then 2
  else if ir = 0x47#8 ∨ ir = 0x45#8 ∨ ir = 0x46#8 then 1
  else 0

/-- The first fault condition a cycle at `s` meets, in the order of spec/60_exceptions.md R78, if it
meets any. -/
def State.firstFault (s : State) : Option Cause :=
  if 256 ≤ s.pc then some (.addressFault s.pc)
  else if 256 ≤ s.pc + s.operandBytes then some (.addressFault 256)
  else (s.registerBytes.find? fun b => decide (8 ≤ b.toNat)).map .registerIndexFault

/-- An outcome with earlier output put in front of the output of the state it carries. -/
def prependOutput (o : List Event) :
    Host.Outcome State Fault Refusal → Host.Outcome State Fault Refusal
  | .next t => .next { t with out := o ++ t.out }
  | .fault (.fatal c t) => .fault (.fatal c { t with out := o ++ t.out })
  | .refused r => .refused r

/-- `digits` is the shortest decimal numeral of `n` (spec/41_move_io.md R56): digits `0` to `9`, no sign,
no padding, of value `n`, with no leading zero but in `0` itself. -/
def isShortestDecimal (digits : Text) (n : Nat) : Prop :=
  digits ≠ [] ∧ digits.all Char.isDigit ∧
  digits.foldl (fun value c => 10 * value + (c.toNat - '0'.toNat)) 0 = n ∧
  (digits.head? = some '0' → digits = ['0'])

/-- The uppercase hexadecimal digits, each at the place of its value (spec/60_exceptions.md R83). -/
def upperHexDigits : Text :=
  ['0', '1', '2', '3', '4', '5', '6', '7', '8', '9', 'A', 'B', 'C', 'D', 'E', 'F']

end Sys2Proof.Machine
end

