-- ==== Sys2Proof/Certificates/Slice0/Obligations.lean ====
section
/-! DEFINITION. The statements for the provers. A clause that rests on one of the spec's own decisions
D<n> says so in its docstring, with the log entry. -/

open Sys2Proof Sys2Proof.Machine

/-! ## Reset, load, invariant -/

/-- R23, R85: every component at its reset value; the memory clause is the spec's decision D9 (log
entry 9). -/
def Obligations.ResetLeavesTheSpecifiedState : Prop :=
  (∀ i : RegIndex, State.reset.readReg i = if i = 7 then 255#8 else 0#8) ∧
  State.reset.sp = 255#8 ∧
  State.reset.pc = 0 ∧
  State.reset.run = .running ∧
  State.reset.out = [] ∧
  (∀ a < 256, memRead State.reset.mem a = .ok 0#8) ∧
  ∀ s, hostReset s = State.reset

/-- The invariant holds after reset. -/
def Obligations.ResetMeetsTheInvariant : Prop :=
  State.reset.Inv

/-- R14, R20, R21: canonical memory, `pc` in 0 to 256 (decision D7, log entry 7) and legal events are
kept by every step, into the next state and into the state a fault leaves. -/
def Obligations.EveryStepKeepsTheInvariant : Prop :=
  (∀ s t : State, s.Inv → step s = .next t → t.Inv) ∧
  ∀ (s t : State) (c : Cause), s.Inv → step s = .fault (.fatal c t) → t.Inv

/-- R86: the load writes the image from address 0, keeps every other cell and touches no other
component; the empty image leaves an unrecognised opcode 0x00 at address 0. -/
def Obligations.LoadWritesTheImageAndNothingElse : Prop :=
  (∀ (image : List Byte) (s : State), s.Inv → image.length ≤ 256 →
    ∃ t, load image s = .ok t ∧ t.Inv ∧
      t.regs = s.regs ∧ t.pc = s.pc ∧ t.run = s.run ∧ t.out = s.out ∧
      (∀ (a : Nat) (h : a < image.length), memRead t.mem a = .ok image[a]) ∧
      ∀ a, image.length ≤ a → memRead t.mem a = memRead s.mem a) ∧
  ∃ t, launch [] State.reset = .ok t ∧ t.AtUnrecognised ∧ memRead t.mem t.pc = .ok 0x00#8 ∧
    (∀ a < 256, memRead t.mem a = .ok Config.memReset) ∧ t.pc = 0

/-- R87: an image of more than 256 bytes fails at address 256. -/
def Obligations.LongImageCannotBeLoaded : Prop :=
  ∀ (image : List Byte) (s : State), 256 < image.length →
    load image s = .error (.addressFault 256)

/-- R88: the launch state, whatever the state before the reset; cells past the image hold MEM_RESET,
0x00 by decision D9 (log entry 9). -/
def Obligations.LaunchStateIsResetPlusImage : Prop :=
  ∀ (image : List Byte) (s : State), image.length ≤ 256 →
    ∃ t, launch image s = .ok t ∧ t.Inv ∧
      (∀ (a : Nat) (h : a < image.length), memRead t.mem a = .ok image[a]) ∧
      (∀ a, image.length ≤ a → a < 256 → memRead t.mem a = .ok 0#8) ∧
      (∀ i : RegIndex, t.readReg i = if i = 7 then 255#8 else 0#8) ∧
      t.pc = 0 ∧ t.run = .running ∧ t.out = []

/-! ## Memory -/

/-- R26, R27: the two primitives. Reads and writes inside 0 to 255 succeed, a write changes that one
cell, anything above raises AddressFault and performs nothing. -/
def Obligations.MemoryPrimitivesReadAndWriteOneCell : Prop :=
  (∀ (m : Memory) (a : Nat) (v : Byte), m.wf → a < 256 →
    ∃ m', memWrite m a v = .ok m' ∧ m'.wf ∧ memRead m' a = .ok v ∧
      ∀ b, b ≠ a → memRead m' b = memRead m b) ∧
  (∀ (m : Memory) (a : Nat), a < 256 → ∃ v, memRead m a = .ok v) ∧
  ∀ (m : Memory) (a : Nat) (v : Byte), 256 ≤ a →
    memRead m a = .error (.addressFault a) ∧ memWrite m a v = .error (.addressFault a)

/-! ## Encoding and the step -/

/-- R39, R40, R42: decode and encode agree, both ways, every operand byte at every value, whatever
follows the instruction. -/
def Obligations.DecodeAndEncodeAgree : Prop :=
  (∀ (i : Instr) (rest : List Byte), decode (encode i ++ rest) = .ok (i, rest)) ∧
  ∀ (bytes rest : List Byte) (i : Instr), decode bytes = .ok (i, rest) → bytes = encode i ++ rest

/-- R42: the six opcodes, their operands in order, and every other byte value. -/
def Obligations.OpcodeMapIsTheClosedSetOfSix : Prop :=
  ∀ ir a b : Byte,
    decode [ir, a, b] =
      if ir = 0x01#8 then .ok (.halt, [a, b])
      else if ir = 0x82#8 then .ok (.loadImmediate a b, [])
      else if ir = 0x47#8 then .ok (.printReg a, [b])
      else if ir = 0xA2#8 then .ok (.multiply a b, [])
      else if ir = 0x45#8 then .ok (.push a, [b])
      else if ir = 0x46#8 then .ok (.pop a, [b])
      else .error (.unrecognised ir)

/-- Words written out from the opcode table and the spec's examples (bits counted as the table counts
them, the opcode in bits 7..0). -/
def Obligations.WrittenOutWordsDecode : Prop :=
  decodeTableWord 8 0b00000001 = some .halt ∧
  decodeTableWord 24 0b00101000_00000000_10000010 = some (.loadImmediate 0#8 40#8) ∧
  decodeTableWord 16 0b00000000_01000111 = some (.printReg 0#8) ∧
  decodeTableWord 24 0b00000001_00000000_10100010 = some (.multiply 0#8 1#8) ∧
  decodeTableWord 16 0b00000111_01000101 = some (.push 7#8) ∧
  decodeTableWord 16 0b00000001_01000110 = some (.pop 1#8) ∧
  decodeTableWord 8 0b11111111 = none ∧
  decodeTableWord 8 0b00000000 = none ∧
  decodeTableWord 8 0b10100000 = none

/-- R48: when the bytes at `pc` decode to an instruction, the step of a running engine is `exec` of it
at that state: nothing moves before it, and `pc` still holds its address. -/
def Obligations.StepRunsTheDecodedInstruction : Prop :=
  ∀ (s : State) (bytes rest : List Byte) (i : Instr), s.run = .running →
    (∀ (k : Nat) (h : k < bytes.length), memRead s.mem (s.pc + k) = .ok bytes[k]) →
    decode bytes = .ok (i, rest) →
    step s = exec i s

/-- R93, R48: one instruction is one step. A step answers a next state exactly where the engine is
running and, in that one step, either reports an unrecognised opcode (decisions D3, D11, log entry 3)
or does all of the instruction encoded at `pc` and nothing besides. -/
def Obligations.OneInstructionIsOneStep : Prop :=
  ∀ s t : State, step s = .next t ↔
    s.run = .running ∧
    ((s.AtUnrecognised ∧ t = { s with out := s.out ++ [.unknown (s.mem.cell s.pc) s.pc] }) ∨
      ∃ i : Instr,
        (∀ (k : Nat) (h : k < (encode i).length),
          memRead s.mem (s.pc + k) = .ok (encode i)[k]) ∧
        exec i s = .next t)

/-- The stand-in for a program loaded from outside (log entry 16): the word stored by `withFetchWord`
is the instruction the next step runs, wherever the instruction fits, and only the three bytes at `pc`
are written. -/
def Obligations.FetchWordIsTheInstructionRunNext : Prop :=
  ∀ (s : State) (nbits w : Nat) (i : Instr), s.Inv → s.run = .running →
    decodeTableWord nbits w = some i → s.pc + i.length ≤ 256 →
    step (s.withFetchWord nbits w) = exec i (s.withFetchWord nbits w) ∧
    (s.withFetchWord nbits w).Inv ∧
    (∀ a, a < s.pc ∨ s.pc + 3 ≤ a →
      memRead (s.withFetchWord nbits w).mem a = memRead s.mem a)

/-! ## The six instructions: effect and completion -/

/-- R51: HALT stops the engine from every state; `pc` stays (decision D10, log entry 10). -/
def Obligations.HaltSetsHaltedAndNothingElse : Prop :=
  ∀ s : State, exec .halt s = .next { s with run := .halted }

/-- R54: LOAD_IMMEDIATE replaces the named register, register 7 included, and advances `pc` by 3. -/
def Obligations.LoadImmediateWritesTheRegister : Prop :=
  ∀ (s : State) (b v : Byte) (a : RegIndex), b.toNat = a.val →
    exec (.loadImmediate b v) s = .next { s with regs := s.regs.set a v, pc := s.pc + 3 }

/-- R55: PRINT_REG appends Print(x[a]) and advances `pc` by 2. -/
def Obligations.PrintRegEmitsTheRegister : Prop :=
  ∀ (s : State) (b : Byte) (a : RegIndex), b.toNat = a.val →
    exec (.printReg b) s = .next { s with out := s.out ++ [.print (s.readReg a)], pc := s.pc + 2 }

/-- R59, R62: MULTIPLY writes the product mod 256 (decision D1, log entry 1) to its first operand,
which may be its second too, and advances `pc` by 3. -/
def Obligations.MultiplyWritesTheProductModulo256 : Prop :=
  ∀ (s : State) (bA bB : Byte) (a b : RegIndex), bA.toNat = a.val → bB.toNat = b.val →
    ∃ t, exec (.multiply bA bB) s = .next t ∧
      (t.readReg a).toNat = (s.readReg a).toNat * (s.readReg b).toNat % 256 ∧
      (∀ r, r ≠ a → t.readReg r = s.readReg r) ∧
      t.mem = s.mem ∧ t.out = s.out ∧ t.run = s.run ∧ t.pc = s.pc + 3

/-- R66: PUSH moves the pointer down modulo 255, then stores the register, read after the move, at the
new pointer; every other byte, register and component stays. The form PUSH r7 stores the new pointer
(decision D2, log entry 2). -/
def Obligations.PushStoresBelowTheStackPointer : Prop :=
  ∀ (s : State) (b : Byte) (a : RegIndex), s.Inv → b.toNat = a.val →
    ∃ t, exec (.push b) s = .next t ∧
      pushAddress s = (if s.sp.toNat = 0 then 254 else s.sp.toNat - 1) ∧
      t.sp.toNat = pushAddress s ∧
      memRead t.mem (pushAddress s) = .ok (if a = 7 then t.sp else s.readReg a) ∧
      (∀ c, c ≠ pushAddress s → memRead t.mem c = memRead s.mem c) ∧
      (∀ r, r ≠ 7 → t.readReg r = s.readReg r) ∧
      t.out = s.out ∧ t.run = s.run ∧ t.pc = s.pc + 2

/-- R67: POP reads at the pointer, writes the register, then moves the pointer up modulo 255; memory
stays. The form POP r7 leaves the popped byte incremented (decision D2, log entry 2). -/
def Obligations.PopReadsAtTheStackPointer : Prop :=
  ∀ (s : State) (b : Byte) (a : RegIndex), b.toNat = a.val →
    ∃ t v, exec (.pop b) s = .next t ∧
      memRead s.mem s.sp.toNat = .ok v ∧
      (a ≠ 7 → t.readReg a = v ∧ t.sp.toNat = (s.sp.toNat + 1) % 255) ∧
      (a = 7 → t.sp.toNat = (v.toNat + 1) % 255) ∧
      (∀ r, r ≠ 7 → r ≠ a → t.readReg r = s.readReg r) ∧
      (∀ c, memRead t.mem c = memRead s.mem c) ∧
      t.out = s.out ∧ t.run = s.run ∧ t.pc = s.pc + 2

/-! ## Frames -/

/-- R12: an instruction that completes leaves every register but those its row lists as written. -/
def Obligations.RegistersChangeOnlyAsTabled : Prop :=
  ∀ (i : Instr) (s t : State) (r : RegIndex),
    exec i s = .next t → ¬ i.writes r → t.readReg r = s.readReg r

/-- R32: memory is written by PUSH alone, and by PUSH only at the decremented pointer. -/
def Obligations.MemoryChangesOnlyAtThePushAddress : Prop :=
  (∀ (i : Instr) (s t : State), exec i s = .next t → (∀ b, i ≠ .push b) →
    ∀ c, memRead t.mem c = memRead s.mem c) ∧
  ∀ (b : Byte) (s t : State), s.Inv → exec (.push b) s = .next t →
    ∀ c, c ≠ pushAddress s → memRead t.mem c = memRead s.mem c

/-- R12, R16, R21: only PRINT_REG emits, only HALT changes the run state, among the instructions
that complete. -/
def Obligations.OutputAndRunStateChangeOnlyByTheirInstruction : Prop :=
  ∀ (i : Instr) (s t : State), exec i s = .next t →
    ((∀ b, i ≠ .printReg b) → t.out = s.out) ∧ (i ≠ .halt → t.run = s.run)

/-- R15: what a cycle that completes does to `pc`, by the opcode byte it fetches; a cycle that faults
leaves it. -/
def Obligations.ProgramCounterAdvancesByTheOperandCount : Prop :=
  ∀ s : State,
    (∀ t, step s = .next t →
      t.pc = if s.mem.cell s.pc ∈ [0x82#8, 0xA2#8] then s.pc + 3
        else if s.mem.cell s.pc ∈ [0x47#8, 0x45#8, 0x46#8] then s.pc + 2
        else s.pc) ∧
    ∀ c t, step s = .fault (.fatal c t) → t.pc = s.pc

/-! ## Faults -/

/-- R44, R73: a register operand byte of 8 or more raises RegisterIndexFault in each of the five
instructions that have one, MULTIPLY's first operand first (decisions D4, D5, D6: log entries 4, 5,
6). -/
def Obligations.BadRegisterOperandFaults : Prop :=
  ∀ (s : State) (b c v : Byte), 8 ≤ b.toNat → c.toNat < 8 →
    let stop := Host.Outcome.fault (Fault.fatal (.registerIndexFault b) { s with run := .faulted })
    exec (.loadImmediate b v) s = stop ∧ exec (.printReg b) s = stop ∧
      exec (.multiply b v) s = stop ∧ exec (.multiply c b) s = stop ∧
      exec (.push b) s = stop ∧ exec (.pop b) s = stop

/-- R71, R72, R78, R79: a running engine's cycle raises the first fault condition of the list and then
leaves only `run` changed, or, where it meets none, completes (decisions D4 to D8: log entries 4 to
8). That a fetch at a `pc` above 256, which no run reaches, faults at that `pc` is log entry 7's DESIGN
CHOICE. -/
def Obligations.CycleFaultsExactlyAtTheFirstCondition : Prop :=
  ∀ s : State, s.run = .running →
    (∀ c, s.firstFault = some c → step s = .fault (.fatal c { s with run := .faulted })) ∧
    (s.firstFault = none → ∃ t, step s = .next t)

/-- R71, R72, R74, R79: whatever a step faults with, it commits nothing; in states that meet the
invariant an address fault is at 256; the ALU's fault is never seen; the faulted engine takes no
further step. -/
def Obligations.FatalFaultCommitsNothingAndIsTerminal : Prop :=
  ∀ (s t : State) (c : Cause), step s = .fault (.fatal c t) →
    s.run = .running ∧ t = { s with run := .faulted } ∧
    step t = .refused (.stopped .faulted) ∧
    (∀ op, c ≠ .unsupportedOperation op) ∧
    (s.Inv → ∀ a, c = .addressFault a → a = 256)

/-- R16, R48: the engine takes no step in HALTED or FAULTED. That the model's step then answers a
refusal by name is the model's choice (log entry 13). -/
def Obligations.StoppedEngineTakesNoStep : Prop :=
  ∀ s : State, (s.run = .halted ∨ s.run = .faulted) ↔ step s = .refused (.stopped s.run)

/-- R16: the transitions of the run state: a step that completes starts RUNNING, and ends HALTED
exactly where the byte at `pc` is the HALT opcode, RUNNING otherwise. -/
def Obligations.OnlyTheHaltOpcodeHalts : Prop :=
  ∀ s t : State, step s = .next t →
    s.run = .running ∧ s.pc < 256 ∧
    t.run = if s.mem.cell s.pc = 0x01#8 then .halted else .running

/-! ## The unrecognised opcode -/

/-- R46, R52: each of the 250 other byte values as an opcode, wherever it stands and whatever follows
it, is reported and nothing else changes (decisions D3, D11: log entry 3). -/
def Obligations.UnrecognisedOpcodeIsReported : Prop :=
  ∀ (s : State) (ir : Byte), s.run = .running → memRead s.mem s.pc = .ok ir →
    ir ∉ [0x01#8, 0x82#8, 0x47#8, 0xA2#8, 0x45#8, 0x46#8] →
    step s = .next { s with out := s.out ++ [.unknown ir s.pc] }

/-- R53, R75: from there the engine reports once a cycle for ever and nothing else ever changes. -/
def Obligations.UnrecognisedOpcodeIsALivelock : Prop :=
  ∀ (s : State) (ir : Byte) (k : Nat), s.run = .running → memRead s.mem s.pc = .ok ir →
    ir ∉ [0x01#8, 0x82#8, 0x47#8, 0xA2#8, 0x45#8, 0x46#8] →
    runFor k s = .next { s with out := s.out ++ List.replicate k (.unknown ir s.pc) }

/-! ## The output stream -/

/-- R21, R52, R55: the stream is only appended to, by at most one event a cycle, and which event is
read off the opcode. -/
def Obligations.OutputIsAppendOnly : Prop :=
  ∀ s t : State, step s = .next t →
    t.out = s.out ++
      if s.mem.cell s.pc = 0x47#8 then
        (s.regs[(s.mem.cell (s.pc + 1)).toNat]?).toList.map Event.print
      else if s.mem.cell s.pc ∈ [0x01#8, 0x82#8, 0xA2#8, 0x45#8, 0x46#8] then []
      else [.unknown (s.mem.cell s.pc) s.pc]

/-- R21: the stream is never read by the engine: earlier output changes nothing but itself, over runs
of any length. -/
def Obligations.OutputIsNeverRead : Prop :=
  ∀ (k : Nat) (s : State) (o : List Event),
    runFor k { s with out := o ++ s.out } = prependOutput o (runFor k s)

/-- R45, R56: every immediate, in every register, is loaded as it stands and printed as its decimal
numeral; no other instruction has an immediate. The text is by decision D12 (log entry 11). -/
def Obligations.LoadedImmediateIsPrintedAsItStands : Prop :=
  (∀ (s : State) (b v : Byte) (a : RegIndex), b.toNat = a.val →
    ∃ t u, exec (.loadImmediate b v) s = .next t ∧ t.readReg a = v ∧
      exec (.printReg b) t = .next u ∧ u.out = s.out ++ [.print v] ∧
      outputText u.out = outputText s.out ++ Nat.toDigits 10 v.toNat ++ ['\n']) ∧
  ∀ i : Instr, (∀ r v, i ≠ .loadImmediate r v) → (encode i).tail = i.registerOperands

/-- R52, R56 (decisions D11, D12: log entry 11): the line of a printed value is its shortest decimal
numeral; the line of a report is the source's words around the shortest decimal numerals of opcode and
address, whatever they are; each ends in one line feed; an output stream reads line after line; and the
lines of the spec's examples. -/
def Obligations.EventTextIsDecimal : Prop :=
  (∀ v : Byte, ∃ digits : Text, isShortestDecimal digits v.toNat ∧
    (Event.print v).text = digits ++ ['\n']) ∧
  (∀ (op : Byte) (addr : Nat), ∃ opDigits addrDigits : Text,
    isShortestDecimal opDigits op.toNat ∧ isShortestDecimal addrDigits addr ∧
    (Event.unknown op addr).text =
      "unknown instruction ".toList ++ opDigits ++ " at address ".toList ++ addrDigits ++ ['\n']) ∧
  (∀ (e : Event) (out : List Event), outputText (e :: out) = e.text ++ outputText out) ∧
  outputText [] = [] ∧
  (Event.print 40#8).text = ['4', '0', '\n'] ∧
  (Event.unknown 255#8 0).text = "unknown instruction 255 at address 0\n".toList

/-! ## The ALU -/

/-- R57 to R60: the ALU writes its first register and nothing else; results mod 256 (decision D1, log
entry 1); any other operation is fatal and writes nothing. -/
def Obligations.AluAddsMultipliesAndRefusesTheRest : Prop :=
  ∀ (s : State) (a b : RegIndex),
    let x := (s.readReg a).toNat
    let y := (s.readReg b).toNat
    alu .add a b s = .ok { s with regs := s.regs.set a (BitVec.ofNat 8 ((x + y) % 256)) } ∧
    alu .mul a b s = .ok { s with regs := s.regs.set a (BitVec.ofNat 8 ((x * y) % 256)) } ∧
    ∀ n, alu (.other n) a b s = .error (.unsupportedOperation (.other n))

/-! ## The stack -/

/-- R65: the two functions of the stack pointer, the table, their range, and that PUSH and POP move the
pointer by them (POP r7, which also writes the popped byte there, is in PopReadsAtTheStackPointer). -/
def Obligations.StackPointerStepsModulo255 : Prop :=
  (∀ p : Byte,
    ((spDec p).toNat : Int) = ((p.toNat : Int) - 1) % 255 ∧
    ((spInc p).toNat : Int) = ((p.toNat : Int) + 1) % 255 ∧
    (spDec p).toNat ≤ 254 ∧ (spInc p).toNat ≤ 254 ∧
    (p = 0#8 → spDec p = 254#8 ∧ spInc p = 1#8) ∧
    (1 ≤ p.toNat ∧ p.toNat ≤ 253 → spDec p = p - 1#8 ∧ spInc p = p + 1#8) ∧
    (p = 254#8 → spDec p = 253#8 ∧ spInc p = 0#8) ∧
    (p = 255#8 → spDec p = 254#8 ∧ spInc p = 1#8)) ∧
  ∀ (s : State) (b : Byte) (a : RegIndex), b.toNat = a.val →
    (∃ t, exec (.push b) s = .next t ∧ t.sp = spDec s.sp) ∧
    (a ≠ 7 → ∃ t, exec (.pop b) s = .next t ∧ t.sp = spInc s.sp)

/-- R11: after any PUSH or POP the pointer is 0 to 254, whatever the operand. -/
def Obligations.StackPointerIsBelow255AfterPushOrPop : Prop :=
  ∀ (s t : State) (b : Byte), exec (.push b) s = .next t ∨ exec (.pop b) s = .next t →
    t.sp.toNat ≤ 254

/-- R10: the stack pointer is register 7: an instruction that writes register 7 moves the stack
(decision D2, log entry 2). -/
def Obligations.WritingRegister7MovesTheStack : Prop :=
  (∀ s : State, s.sp = s.readReg 7) ∧
  ∀ (s : State) (v : Byte), ∃ t, exec (.loadImmediate 7#8 v) s = .next t ∧
    popAddress t = v.toNat ∧ pushAddress t = if v = 0#8 then 254 else v.toNat - 1

/-- R31: no step changes cell 255. -/
def Obligations.NoStepChangesAddress255 : Prop :=
  ∀ s t : State, s.Inv → step s = .next t → memRead t.mem 255 = memRead s.mem 255

/-- R69: the push-pop law on its exact domain, as two cycles of the engine. -/
def Obligations.PushThenPopRestoresTheValue : Prop :=
  ∀ (s : State) (bR bQ : Byte) (r q : RegIndex), s.Inv → s.run = .running →
    memRead s.mem s.pc = .ok 0x45#8 → memRead s.mem (s.pc + 1) = .ok bR →
    memRead s.mem (s.pc + 2) = .ok 0x46#8 → memRead s.mem (s.pc + 3) = .ok bQ →
    bR.toNat = r.val → bQ.toNat = q.val → r ≠ 7 → q ≠ 7 →
    pushAddress s ≠ s.pc + 2 → pushAddress s ≠ s.pc + 3 →
    ∃ t, runFor 2 s = .next t ∧
      t.readReg q = s.readReg r ∧
      memRead t.mem (pushAddress s) = .ok (s.readReg r) ∧
      t.pc = s.pc + 4 ∧
      t.sp = spInc (spDec s.sp) ∧
      t.sp = if s.sp = 255#8 then 0#8 else s.sp

/-- R70: `k` PUSHes from pointer 255 leave 254 minus (k - 1) mod 255, and the first 255 of them write
every cell from 254 down to 0 once. PUSH r7 included (decision D2, log entry 2). -/
def Obligations.RepeatedPushesWalkDownTheStack : Prop :=
  ∀ (s : State) (b : Byte) (a : RegIndex) (k : Nat), s.Inv → s.sp = 255#8 → b.toNat = a.val →
    1 ≤ k →
    ∃ t, execTimes (.push b) k s = .next t ∧
      t.sp.toNat = 254 - (k - 1) % 255 ∧
      (k ≤ 255 → t.sp.toNat = 255 - k ∧
        ∀ j, 1 ≤ j → j ≤ k → memRead t.mem (255 - j) =
          .ok (if a = 7 then BitVec.ofNat 8 (255 - j) else s.readReg a))

/-! ## Whole-machine rules -/

/-- R37: a byte stored by a PUSH over the byte after it is what the very next cycle fetches: HALT stops
there, an unrecognised byte is reported there. -/
def Obligations.StoredByteIsFetchedByTheNextCycle : Prop :=
  ∀ (s : State) (b v : Byte) (a : RegIndex), s.Inv → s.run = .running →
    memRead s.mem s.pc = .ok 0x45#8 → memRead s.mem (s.pc + 1) = .ok b → b.toNat = a.val →
    pushAddress s = s.pc + 2 → v = (if a = 7 then spDec s.sp else s.readReg a) →
    ∃ t, step s = .next t ∧ t.pc = pushAddress s ∧ memRead t.mem t.pc = .ok v ∧
      (v = 0x01#8 → step t = .next { t with run := .halted }) ∧
      (v ∉ [0x01#8, 0x82#8, 0x47#8, 0xA2#8, 0x45#8, 0x46#8] →
        step t = .next { t with out := t.out ++ [.unknown v t.pc] })

/-- R32: a step looks at memory only at `pc`, `pc+1`, `pc+2` and at the stack pointer: two engines that
agree there and in everything else make the same step, memory apart. -/
def Obligations.MemoryIsReadOnlyByFetchAndPop : Prop :=
  ∀ s s' t : State, s'.regs = s.regs → s'.pc = s.pc → s'.run = s.run → s'.out = s.out →
    (∀ k < 3, memRead s'.mem (s.pc + k) = memRead s.mem (s.pc + k)) →
    memRead s'.mem (popAddress s) = memRead s.mem (popAddress s) →
    step s = .next t →
    ∃ t', step s' = .next t' ∧ t'.regs = t.regs ∧ t'.pc = t.pc ∧ t'.run = t.run ∧ t'.out = t.out

/-- R89: from every state the running engine completes at most 128 cycles before one that halts, one
that faults, or the livelock. -/
def Obligations.RunHaltsFaultsOrLivelocksWithin129Cycles : Prop :=
  ∀ s : State, s.run = .running →
    ∃ k t, k ≤ 128 ∧ runFor k s = .next t ∧ t.run = .running ∧
      ((∃ u, step t = .next u ∧ u.Final) ∨
       (∃ c u, step t = .fault (.fatal c u)) ∨
       t.AtUnrecognised)

/-- R83 (decision D13, log entry 12): the twelve values of a trace line in order, at every state; bytes
above address 255 are absent, and so is a `pc` that does not fit two digits (the model's choice, log
entry 12). The line's texts are those values, each as two uppercase hexadecimal digits of the byte's
value. -/
def Obligations.TraceShowsTheTwelveValues : Prop :=
  (∀ s : State,
    let byteAt := fun a : Nat => if a < 256 then some (s.mem.cell a) else none
    traceSnapshot s =
      [if s.pc < 256 then some (BitVec.ofNat 8 s.pc) else none,
        byteAt s.pc, byteAt (s.pc + 1), byteAt (s.pc + 2),
        some (s.readReg 0), some (s.readReg 1), some (s.readReg 2), some (s.readReg 3),
        some (s.readReg 4), some (s.readReg 5), some (s.readReg 6), some (s.readReg 7)]) ∧
  (∀ s : State, (traceTexts s).length = 12 ∧
    ∀ (k : Nat) (value : Option Byte), (traceSnapshot s)[k]? = some value →
      (traceTexts s)[k]? = some (match value with
        | some b => some (hexByte b)
        | none => none)) ∧
  (∀ b : Byte, ∃ high low : Char, hexByte b = [high, low] ∧
    high ∈ upperHexDigits ∧ low ∈ upperHexDigits ∧
    16 * upperHexDigits.idxOf high + upperHexDigits.idxOf low = b.toNat) ∧
  hexByte 0x0A#8 = ['0', 'A'] ∧ hexByte 0xFF#8 = ['F', 'F']
end

