-- ==== Sys2Proof/Laws/Decode.lean ====
section
/-! SUPPORT. What the one decoder answers, over any way of reading bytes
(spec/30_encoding.md R41 to R46). -/

namespace Sys2Proof

variable {ε : Type} {read : Nat → Except ε Byte}

/-- Shared shape of the six recognised cases and the unrecognised one. -/
theorem decodeFrom_ok {ir : Byte} (h0 : read 0 = .ok ir) :
    decodeFrom read =
      if ir = opcodeHalt then .ok (.instr .halt)
      else if ir = opcodeLoadImmediate then
        (do let a ← read 1; let v ← read 2; .ok (.instr (.loadImmediate a v)))
      else if ir = opcodePrintReg then (do let a ← read 1; .ok (.instr (.printReg a)))
      else if ir = opcodeMultiply then
        (do let a ← read 1; let b ← read 2; .ok (.instr (.multiply a b)))
      else if ir = opcodePush then (do let a ← read 1; .ok (.instr (.push a)))
      else if ir = opcodePop then (do let a ← read 1; .ok (.instr (.pop a)))
      else .ok (.unrecognised ir) := by
  unfold decodeFrom
  rw [h0]
  rfl

theorem decodeFrom_error {e : ε} (h0 : read 0 = .error e) : decodeFrom read = .error e := by
  unfold decodeFrom
  rw [h0]
  rfl

theorem decodeFrom_unrecognised {ir : Byte} (h0 : read 0 = .ok ir) (h : ir ∉ recognisedOpcodes) :
    decodeFrom read = .ok (.unrecognised ir) := by
  simp only [recognisedOpcodes, List.mem_cons, List.not_mem_nil, or_false, not_or] at h
  obtain ⟨h1, h2, h3, h4, h5, h6⟩ := h
  rw [decodeFrom_ok h0, if_neg h1, if_neg h2, if_neg h3, if_neg h4, if_neg h5, if_neg h6]

/-- Enough bytes read as an instruction's encoding decode to it. -/
theorem decodeFrom_encode (i : Instr)
    (h : ∀ k (hk : k < (encode i).length), read k = .ok ((encode i)[k])) :
    decodeFrom read = .ok (.instr i) := by
  have h0 := h 0 (by cases i <;> simp [encode])
  cases i with
  | halt => exact decodeFrom_ok h0
  | loadImmediate a v =>
    rw [decodeFrom_ok h0, h 1 (by simp [encode]), h 2 (by simp [encode])]; rfl
  | printReg a => rw [decodeFrom_ok h0, h 1 (by simp [encode])]; rfl
  | multiply a b =>
    rw [decodeFrom_ok h0, h 1 (by simp [encode]), h 2 (by simp [encode])]; rfl
  | push a => rw [decodeFrom_ok h0, h 1 (by simp [encode])]; rfl
  | pop a => rw [decodeFrom_ok h0, h 1 (by simp [encode])]; rfl

/-- The bind of a computation that may raise, taken apart at a success. -/
theorem Except_bind_eq_ok {α β : Type} {x : Except ε α} {f : α → Except ε β} {b : β} :
    (x >>= f) = .ok b ↔ ∃ a, x = .ok a ∧ f a = .ok b := by
  cases x <;> simp [bind, Except.bind]

/-- The bind of a computation that may raise, taken apart at a raise. -/
theorem Except_bind_eq_error {α β : Type} {x : Except ε α} {f : α → Except ε β} {e : ε} :
    (x >>= f) = .error e ↔ x = .error e ∨ ∃ a, x = .ok a ∧ f a = .error e := by
  cases x <;> simp [bind, Except.bind]

/-- An instruction is decoded from its encoding only. -/
theorem encode_of_decodeFrom {i : Instr} (h : decodeFrom read = .ok (.instr i)) :
    ∀ k (hk : k < (encode i).length), read k = .ok ((encode i)[k]) := by
  rcases h0 : read 0 with e | ir
  · rw [decodeFrom_error h0] at h; cases h
  rw [decodeFrom_ok h0] at h
  repeat' split at h
  all_goals
    simp only [Except_bind_eq_ok, Except.ok.injEq, Decoded.instr.injEq, reduceCtorEq] at h
  · subst h
    intro k hk
    obtain rfl : k = 0 := by simp [encode] at hk; exact hk
    simp [encode, *]
  · obtain ⟨a, ha, v, hv, rfl⟩ := h
    intro k hk
    have : k = 0 ∨ k = 1 ∨ k = 2 := by simp [encode] at hk; omega
    rcases this with rfl | rfl | rfl <;> simp [encode, *]
  · obtain ⟨a, ha, rfl⟩ := h
    intro k hk
    have : k = 0 ∨ k = 1 := by simp [encode] at hk; omega
    rcases this with rfl | rfl <;> simp [encode, *]
  · obtain ⟨a, ha, v, hv, rfl⟩ := h
    intro k hk
    have : k = 0 ∨ k = 1 ∨ k = 2 := by simp [encode] at hk; omega
    rcases this with rfl | rfl | rfl <;> simp [encode, *]
  · obtain ⟨a, ha, rfl⟩ := h
    intro k hk
    have : k = 0 ∨ k = 1 := by simp [encode] at hk; omega
    rcases this with rfl | rfl <;> simp [encode, *]
  · obtain ⟨a, ha, rfl⟩ := h
    intro k hk
    have : k = 0 ∨ k = 1 := by simp [encode] at hk; omega
    rcases this with rfl | rfl <;> simp [encode, *]

theorem unrecognised_of_decodeFrom {ir : Byte} (h : decodeFrom read = .ok (.unrecognised ir)) :
    read 0 = .ok ir ∧ ir ∉ recognisedOpcodes := by
  rcases h0 : read 0 with e | jr
  · rw [decodeFrom_error h0] at h; cases h
  by_cases hr : jr ∈ recognisedOpcodes
  · rw [decodeFrom_ok h0] at h
    simp only [recognisedOpcodes, List.mem_cons, List.not_mem_nil, or_false] at hr
    rcases hr with rfl | rfl | rfl | rfl | rfl | rfl <;>
      simp [opcodeHalt, opcodeLoadImmediate, opcodePrintReg, opcodeMultiply, opcodePush, opcodePop,
        Except_bind_eq_ok] at h
  · rw [decodeFrom_unrecognised h0 hr] at h
    cases h
    exact ⟨rfl, hr⟩

/-- A decode fails only where a read fails, at the opcode or at one of its operands, and with the
error of the first read that fails. -/
theorem error_of_decodeFrom {e : ε} (h : decodeFrom read = .error e) :
    read 0 = .error e ∨ ∃ ir n k, read 0 = .ok ir ∧ operandCount? ir = some n ∧ k < n ∧
      read (k + 1) = .error e ∧ ∀ j < k, ∃ b, read (j + 1) = .ok b := by
  rcases h0 : read 0 with e' | ir
  · rw [decodeFrom_error h0] at h; cases h; exact .inl rfl
  refine .inr ?_
  rw [decodeFrom_ok h0] at h
  repeat' split at h
  all_goals
    simp only [Except_bind_eq_error, reduceCtorEq, and_false, exists_false, or_false] at h
  all_goals try subst ir
  · rcases h with h | ⟨a, ha, h⟩
    · exact ⟨_, 2, 0, rfl, rfl, by omega, h, by omega⟩
    · exact ⟨_, 2, 1, rfl, rfl, by omega, h, fun j hj => ⟨a, by obtain rfl : j = 0 := by omega
                                                                exact ha⟩⟩
  · exact ⟨_, 1, 0, rfl, rfl, by omega, h, by omega⟩
  · rcases h with h | ⟨a, ha, h⟩
    · exact ⟨_, 2, 0, rfl, rfl, by omega, h, by omega⟩
    · exact ⟨_, 2, 1, rfl, rfl, by omega, h, fun j hj => ⟨a, by obtain rfl : j = 0 := by omega
                                                                exact ha⟩⟩
  · exact ⟨_, 1, 0, rfl, rfl, by omega, h, by omega⟩
  · exact ⟨_, 1, 0, rfl, rfl, by omega, h, by omega⟩

/-- The decoder looks at three bytes at most. -/
theorem decodeFrom_congr {read' : Nat → Except ε Byte} (h : ∀ k < 3, read k = read' k) :
    decodeFrom read = decodeFrom read' := by
  unfold decodeFrom
  rw [h 0 (by omega), h 1 (by omega), h 2 (by omega)]

theorem byteOf_eq_ok {bytes : List Byte} {k : Nat} {b : Byte} :
    byteOf bytes k = .ok b ↔ bytes[k]? = some b := by
  unfold byteOf
  cases bytes[k]? <;> simp

/-! ## Lengths and opcodes of encodings -/

@[simp] theorem encode_length (i : Instr) : (encode i).length = i.length := by cases i <;> rfl

theorem Instr.length_pos (i : Instr) : 0 < i.length := by cases i <;> simp [Instr.length]

theorem operandCount_encode (i : Instr) :
    operandCount? ((encode i)[0]'(by simp [Instr.length_pos])) = some (i.length - 1) := by
  cases i <;> rfl

theorem operandCount_eq_none {ir : Byte} : operandCount? ir = none ↔ ir ∉ recognisedOpcodes := by
  simp only [operandCount?, recognisedOpcodes, List.mem_cons, List.not_mem_nil, or_false, not_or]
  repeat' split
  all_goals simp [*]

theorem mem_recognised_of_operandCount {ir : Byte} {n : Nat} (h : operandCount? ir = some n) :
    ir ∈ recognisedOpcodes := by
  by_contra hr
  rw [operandCount_eq_none.2 hr] at h
  cases h

theorem Instr.opcode_recognised (i : Instr) :
    (encode i)[0]'(by simp [Instr.length_pos]) ∈ recognisedOpcodes :=
  mem_recognised_of_operandCount (operandCount_encode i)

end Sys2Proof
end

