-- ==== Sys2Proof/Laws/Memory.lean ====
section
/-! SUPPORT. The laws of memory: read after write, the canonical form, range checks
(spec/20_memory.md R26, R27, R30). -/

namespace Sys2Proof.Machine

/-! ## One cell -/

@[simp] theorem Memory.cell_nil (a : Nat) : Memory.cell [] a = Config.memReset := rfl

theorem Memory.cell_cons (b a : Nat) (w : Byte) (m : Memory) :
    Memory.cell ((b, w) :: m) a = if b = a then w else m.cell a := rfl

/-- Below every listed address, memory reads as an unlisted cell. -/
theorem Memory.cell_of_lt {m : Memory} {a : Nat} (h : ∀ c ∈ m, a < c.1) :
    m.cell a = Config.memReset := by
  induction m with
  | nil => rfl
  | cons c m ih =>
    have hc : a < c.1 := h c (by simp)
    rw [Memory.cell_cons, if_neg (by omega)]
    exact ih fun d hd => h d (by simp [hd])

theorem Memory.cell_put {a b : Nat} {v : Byte} {m : Memory} (h : m.cell a = Config.memReset) :
    (Memory.put (a, v) m).cell b = if a = b then v else m.cell b := by
  unfold Memory.put
  split
  case isTrue hv =>
    by_cases hab : a = b
    · subst hab; simpa [h] using hv.symm
    · simp [hab]
  case isFalse => rfl

theorem Memory.mem_put {c d : Host.Cell} {m : Memory} (h : d ∈ Memory.put c m) : d = c ∨ d ∈ m := by
  unfold Memory.put at h
  split at h <;> simp_all

theorem Memory.pairwise_put {c : Host.Cell} {m : Memory} (hm : m.Pairwise (fun c d => c.1 < d.1))
    (hc : ∀ d ∈ m, c.1 < d.1) : (Memory.put c m).Pairwise (fun c d => c.1 < d.1) := by
  unfold Memory.put
  split
  · exact hm
  · exact List.pairwise_cons.2 ⟨hc, hm⟩

theorem Memory.put_ne_reset {c : Host.Cell} {m : Memory} (hm : ∀ d ∈ m, d.2 ≠ Config.memReset) :
    ∀ d ∈ Memory.put c m, d.2 ≠ Config.memReset := by
  unfold Memory.put
  split
  · exact hm
  case isFalse h => simpa [h] using hm

/-- What an update lists is what was listed or the cell written. -/
theorem Memory.mem_update {m : Memory} {a : Nat} {v : Byte} {d : Host.Cell}
    (h : d ∈ m.update a v) : d = (a, v) ∨ d ∈ m := by
  induction m with
  | nil => simpa using Memory.mem_put h
  | cons c m ih =>
    simp only [Memory.update] at h
    split at h
    · exact Memory.mem_put h
    split at h
    · rcases Memory.mem_put h with h | h <;> simp [h]
    · rcases List.mem_cons.1 h with h | h
      · simp [h]
      · rcases ih h with h | h <;> simp [h]

/-- A write keeps the canonical form. -/
theorem Memory.wf_update {m : Memory} {a : Nat} (v : Byte) (hm : m.wf) (ha : a < Config.memSize) :
    (m.update a v).wf := by
  obtain ⟨hp, hc⟩ := hm
  refine ⟨?_, fun d hd => ⟨?_, ?_⟩⟩
  · clear hc
    induction m with
    | nil => exact Memory.pairwise_put hp (by simp)
    | cons c m ih =>
      obtain ⟨h1, h2⟩ := List.pairwise_cons.1 hp
      simp only [Memory.update]
      split
      · refine Memory.pairwise_put hp fun d hd => ?_
        rcases List.mem_cons.1 hd with rfl | hd
        · assumption
        · have := h1 d hd; omega
      split
      case isTrue h => subst h; exact Memory.pairwise_put h2 h1
      · refine List.pairwise_cons.2 ⟨fun d hd => ?_, ih h2⟩
        rcases Memory.mem_update hd with rfl | hd
        · simp only; omega
        · exact h1 d hd
  · rcases Memory.mem_update hd with rfl | hd
    · exact ha
    · exact (hc d hd).1
  · have hne : ∀ c ∈ m, c.2 ≠ Config.memReset := fun c hc' => (hc c hc').2
    clear hc hp
    induction m with
    | nil => exact Memory.put_ne_reset (m := []) (by simp) d hd
    | cons c m ih =>
      have hm : ∀ e ∈ m, e.2 ≠ Config.memReset := fun e he => hne e (by simp [he])
      simp only [Memory.update] at hd
      split at hd
      · exact Memory.put_ne_reset hne d hd
      split at hd
      · exact Memory.put_ne_reset hm d hd
      · rcases List.mem_cons.1 hd with rfl | hd
        · exact hne _ (by simp)
        · exact ih hd hm

/-- Read after write: the cell written holds the value, every other cell what it held. -/
theorem Memory.cell_update {m : Memory} (hm : m.wf) (a b : Nat) (v : Byte) :
    (m.update a v).cell b = if a = b then v else m.cell b := by
  obtain ⟨hp, -⟩ := hm
  induction m with
  | nil => exact Memory.cell_put rfl
  | cons c m ih =>
    obtain ⟨h1, h2⟩ := List.pairwise_cons.1 hp
    simp only [Memory.update]
    split
    case isTrue h =>
      refine Memory.cell_put (Memory.cell_of_lt fun d hd => ?_)
      rcases List.mem_cons.1 hd with rfl | hd
      · exact h
      · have := h1 d hd; omega
    split
    case isTrue h =>
      subst h
      rw [Memory.cell_put (Memory.cell_of_lt h1), Memory.cell_cons]
      split <;> rfl
    case isFalse h =>
      rw [Memory.cell_cons, ih h2, Memory.cell_cons]
      by_cases hab : a = b
      · subst hab; simp [Ne.symm h]
      · simp [hab]

/-- Two canonical memories with equal cells are equal data. -/
theorem Memory.ext_of_wf {m n : Memory} (hm : m.wf) (hn : n.wf) (h : ∀ a, m.cell a = n.cell a) :
    m = n := by
  induction m generalizing n with
  | nil =>
    cases n with
    | nil => rfl
    | cons d n =>
      have := h d.1
      rw [Memory.cell_nil, Memory.cell_cons, if_pos rfl] at this
      exact absurd this.symm (hn.2 d (by simp)).2
  | cons c m ih =>
    obtain ⟨hpm, hcm⟩ := hm
    obtain ⟨hm1, hm2⟩ := List.pairwise_cons.1 hpm
    cases n with
    | nil =>
      have := h c.1
      rw [Memory.cell_nil, Memory.cell_cons, if_pos rfl] at this
      exact absurd this (hcm c (by simp)).2
    | cons d n =>
      obtain ⟨hpn, hcn⟩ := hn
      obtain ⟨hn1, hn2⟩ := List.pairwise_cons.1 hpn
      have hc := h c.1
      have hd := h d.1
      rw [Memory.cell_cons, if_pos rfl, Memory.cell_cons] at hc
      rw [Memory.cell_cons, Memory.cell_cons, if_pos rfl] at hd
      have hcd : c.1 = d.1 := by
        rcases Nat.lt_trichotomy c.1 d.1 with hlt | heq | hgt
        · rw [if_neg (by omega), Memory.cell_of_lt fun e he => by have := hn1 e he; omega] at hc
          exact absurd hc (hcm c (by simp)).2
        · exact heq
        · rw [if_neg (by omega), Memory.cell_of_lt fun e he => by have := hm1 e he; omega] at hd
          exact absurd hd.symm (hcn d (by simp)).2
      rw [if_pos hcd.symm] at hc
      have hmn : m = n := by
        refine ih ⟨hm2, fun e he => hcm e (by simp [he])⟩
          ⟨hn2, fun e he => hcn e (by simp [he])⟩ fun a => ?_
        have ha := h a
        rw [Memory.cell_cons, Memory.cell_cons] at ha
        by_cases hca : c.1 = a
        · rw [Memory.cell_of_lt fun e he => by have := hm1 e he; omega,
            Memory.cell_of_lt fun e he => by have := hn1 e he; omega]
        · simpa [hca, hcd ▸ hca] using ha
      rw [hmn, Prod.ext hcd hc]

/-! ## The two primitives of R27 -/

theorem memRead_ok {m : Memory} {a : Nat} (h : a < 256) : memRead m a = .ok (m.cell a) := by
  simp [memRead, h]

theorem memRead_error {m : Memory} {a : Nat} (h : 256 ≤ a) :
    memRead m a = .error (.addressFault a) := by
  simp [memRead, Nat.not_lt.2 h]

theorem memRead_eq_ok {m : Memory} {a : Nat} {v : Byte} :
    memRead m a = .ok v ↔ a < 256 ∧ m.cell a = v := by
  by_cases h : a < 256 <;> simp [memRead, h]

theorem memWrite_ok {m : Memory} {a : Nat} {v : Byte} (h : a < 256) :
    memWrite m a v = .ok (m.update a v) := by
  simp [memWrite, h]

theorem memWrite_error {m : Memory} {a : Nat} {v : Byte} (h : 256 ≤ a) :
    memWrite m a v = .error (.addressFault a) := by
  simp [memWrite, Nat.not_lt.2 h]

theorem memWrite_eq_ok {m n : Memory} {a : Nat} {v : Byte} :
    memWrite m a v = .ok n ↔ a < 256 ∧ m.update a v = n := by
  by_cases h : a < 256 <;> simp [memWrite, h]

theorem State.store_ok {s : State} {a : Nat} {v : Byte} (h : a < 256) :
    s.store a v = .ok (s.setMem (s.mem.update a v)) := by
  simp [State.store, memWrite_ok h, bind, Except.bind]

theorem State.load_ok {s : State} {a : Nat} (h : a < 256) : s.load a = .ok (s.mem.cell a) :=
  memRead_ok h

/-! ## Several bytes -/

/-- A run of writes inside the array succeeds, keeps the canonical form, and leaves the bytes where
they belong and every other cell as it was. -/
theorem memWriteAll_spec {m : Memory} (hm : m.wf) (bs : List Byte) (base : Nat)
    (h : base + bs.length ≤ 256) :
    ∃ m', memWriteAll bs base m = .ok m' ∧ m'.wf ∧
      ∀ a, m'.cell a = if base ≤ a then (bs[a - base]?).getD (m.cell a) else m.cell a := by
  induction bs generalizing base m with
  | nil => exact ⟨m, rfl, hm, fun a => by simp⟩
  | cons b bs ih =>
    simp only [List.length_cons] at h
    obtain ⟨m', h1, h2, h3⟩ :=
      ih (Memory.wf_update b hm (show base < 256 by omega)) (base + 1) (by omega)
    refine ⟨m', ?_, h2, fun a => ?_⟩
    · simpa [memWriteAll, memWrite_ok (show base < 256 by omega), bind, Except.bind] using h1
    · rw [h3, Memory.cell_update hm]
      rcases Nat.lt_trichotomy a base with hlt | rfl | hgt
      · simp [show ¬ base + 1 ≤ a by omega, show ¬ base ≤ a by omega, show base ≠ a by omega]
      · simp
      · obtain ⟨k, rfl⟩ : ∃ k, a = base + 1 + k := ⟨a - (base + 1), by omega⟩
        simp [show base + 1 + k - base = k + 1 by omega, show base ≤ base + 1 + k by omega,
          show base ≠ base + 1 + k by omega]

/-- A run of writes that leaves the array fails at its first address outside (R87). -/
theorem memWriteAll_error {m : Memory} (bs : List Byte) (base : Nat) (hb : base ≤ 256)
    (h : 256 < base + bs.length) :
    memWriteAll bs base m = .error (.addressFault 256) := by
  induction bs generalizing base m with
  | nil => simp at h; omega
  | cons b bs ih =>
    simp only [List.length_cons] at h
    by_cases hlt : base < 256
    · simpa [memWriteAll, memWrite_ok hlt, bind, Except.bind] using ih (base + 1) (by omega) (by omega)
    · obtain rfl : base = 256 := by omega
      simp [memWriteAll, memWrite_error (Nat.le_refl 256), bind, Except.bind]

/-- The store of `State.withFetchWord` keeps the canonical form and puts the bytes where they
belong. -/
theorem storeBytes_spec {m : Memory} (hm : m.wf) (bs : List Byte) (base : Nat) :
    (storeBytes bs base m).wf ∧
      ∀ a < 256, (storeBytes bs base m).cell a =
        if base ≤ a then (bs[a - base]?).getD (m.cell a) else m.cell a := by
  induction bs generalizing base m with
  | nil => exact ⟨hm, fun a _ => by simp [storeBytes]⟩
  | cons b bs ih =>
    simp only [storeBytes]
    by_cases hlt : base < 256
    · rw [if_pos hlt]
      obtain ⟨h2, h3⟩ := ih (Memory.wf_update b hm (show base < 256 by omega)) (base + 1)
      refine ⟨h2, fun a ha => ?_⟩
      rw [h3 a ha, Memory.cell_update hm]
      rcases Nat.lt_trichotomy a base with hlt | rfl | hgt
      · simp [show ¬ base + 1 ≤ a by omega, show ¬ base ≤ a by omega, show base ≠ a by omega]
      · simp
      · obtain ⟨k, rfl⟩ : ∃ k, a = base + 1 + k := ⟨a - (base + 1), by omega⟩
        simp [show base + 1 + k - base = k + 1 by omega, show base ≤ base + 1 + k by omega,
          show base ≠ base + 1 + k by omega]
    · rw [if_neg hlt]
      obtain ⟨h2, h3⟩ := ih hm (base + 1)
      refine ⟨h2, fun a ha => ?_⟩
      rw [h3 a ha]
      simp [show ¬ base + 1 ≤ a by omega, show ¬ base ≤ a by omega]

end Sys2Proof.Machine
end

