-- ==== Sys2Proof/Laws/State.lean ====
section
/-! SUPPORT. One lemma per field per update of the state, so that no proof unfolds a record
update. -/

namespace Sys2Proof.Machine

variable (s : State) (i j : RegIndex) (v : Byte) (n : Nat) (e : Event) (r : RunState)

/-! ## writeReg -/

@[simp] theorem State.writeReg_pc : (s.writeReg i v).pc = s.pc := rfl
@[simp] theorem State.writeReg_run : (s.writeReg i v).run = s.run := rfl
@[simp] theorem State.writeReg_out : (s.writeReg i v).out = s.out := rfl
@[simp] theorem State.writeReg_mem : (s.writeReg i v).mem = s.mem := rfl
@[simp] theorem State.writeReg_regs : (s.writeReg i v).regs = s.regs.set i v := rfl

theorem State.readReg_writeReg :
    (s.writeReg i v).readReg j = if i = j then v else s.readReg j := by
  simp [State.readReg, State.writeReg, Vector.getElem_set, Fin.ext_iff]

@[simp] theorem State.readReg_writeReg_self : (s.writeReg i v).readReg i = v := by
  simp [State.readReg_writeReg]

theorem State.readReg_writeReg_ne (h : j ≠ i) : (s.writeReg i v).readReg j = s.readReg j := by
  simp [State.readReg_writeReg, h.symm]

/-! ## setSp -/

@[simp] theorem State.setSp_pc : (s.setSp v).pc = s.pc := rfl
@[simp] theorem State.setSp_run : (s.setSp v).run = s.run := rfl
@[simp] theorem State.setSp_out : (s.setSp v).out = s.out := rfl
@[simp] theorem State.setSp_mem : (s.setSp v).mem = s.mem := rfl
@[simp] theorem State.sp_setSp : (s.setSp v).sp = v := State.readReg_writeReg_self ..

theorem State.readReg_setSp :
    (s.setSp v).readReg j = if j = Config.spReg then v else s.readReg j := by
  simp [State.setSp, State.readReg_writeReg, eq_comm]

theorem State.sp_writeReg :
    (s.writeReg i v).sp = if i = Config.spReg then v else s.sp := State.readReg_writeReg ..

/-! ## advance -/

@[simp] theorem State.advance_pc : (s.advance n).pc = s.pc + n := rfl
@[simp] theorem State.advance_run : (s.advance n).run = s.run := rfl
@[simp] theorem State.advance_out : (s.advance n).out = s.out := rfl
@[simp] theorem State.advance_mem : (s.advance n).mem = s.mem := rfl
@[simp] theorem State.advance_regs : (s.advance n).regs = s.regs := rfl
@[simp] theorem State.advance_readReg : (s.advance n).readReg i = s.readReg i := rfl
@[simp] theorem State.advance_sp : (s.advance n).sp = s.sp := rfl

/-! ## emit -/

@[simp] theorem State.emit_pc : (s.emit e).pc = s.pc := rfl
@[simp] theorem State.emit_run : (s.emit e).run = s.run := rfl
@[simp] theorem State.emit_out : (s.emit e).out = s.out ++ [e] := rfl
@[simp] theorem State.emit_mem : (s.emit e).mem = s.mem := rfl
@[simp] theorem State.emit_regs : (s.emit e).regs = s.regs := rfl
@[simp] theorem State.emit_readReg : (s.emit e).readReg i = s.readReg i := rfl
@[simp] theorem State.emit_sp : (s.emit e).sp = s.sp := rfl

/-! ## setRun -/

@[simp] theorem State.setRun_pc : (s.setRun r).pc = s.pc := rfl
@[simp] theorem State.setRun_run : (s.setRun r).run = r := rfl
@[simp] theorem State.setRun_out : (s.setRun r).out = s.out := rfl
@[simp] theorem State.setRun_mem : (s.setRun r).mem = s.mem := rfl
@[simp] theorem State.setRun_regs : (s.setRun r).regs = s.regs := rfl
@[simp] theorem State.setRun_readReg : (s.setRun r).readReg i = s.readReg i := rfl
@[simp] theorem State.setRun_sp : (s.setRun r).sp = s.sp := rfl

/-! ## setMem -/

variable (m : Memory)

@[simp] theorem State.setMem_pc : (s.setMem m).pc = s.pc := rfl
@[simp] theorem State.setMem_run : (s.setMem m).run = s.run := rfl
@[simp] theorem State.setMem_out : (s.setMem m).out = s.out := rfl
@[simp] theorem State.setMem_mem : (s.setMem m).mem = m := rfl
@[simp] theorem State.setMem_regs : (s.setMem m).regs = s.regs := rfl
@[simp] theorem State.setMem_readReg : (s.setMem m).readReg i = s.readReg i := rfl
@[simp] theorem State.setMem_sp : (s.setMem m).sp = s.sp := rfl

end Sys2Proof.Machine
end

