-- ==== Sys2Proof/Laws/Ops.lean ====
section
/-! SUPPORT. What the shared operations can do, each said once: the register check, the fatal fault,
the fetch, the stack pointer logic. -/

namespace Sys2Proof.Machine

/-! ## The register check (R44) -/

theorem reg_of_eq {b : Byte} {a : RegIndex} (h : b.toNat = a) : reg b = .ok a := by
  have : b.toNat < 8 := by omega
  simp [reg, h]

theorem reg_of_ge {b : Byte} (h : 8 ≤ b.toNat) : reg b = .error (.registerIndexFault b) := by
  simp [reg, Nat.not_lt.2 h]

theorem reg_cases (b : Byte) :
    (∃ a : RegIndex, b.toNat = a ∧ reg b = .ok a) ∨
    (8 ≤ b.toNat ∧ reg b = .error (.registerIndexFault b)) := by
  by_cases h : b.toNat < 8
  · exact .inl ⟨⟨b.toNat, h⟩, rfl, reg_of_eq rfl⟩
  · exact .inr ⟨by omega, reg_of_ge (by omega)⟩

theorem namesRegister_iff {b : Byte} : namesRegister b = true ↔ b.toNat < 8 := by
  simp [namesRegister]

/-! ## The fatal fault (R79) -/

@[simp] theorem attempt_ok (s t : State) : attempt s (.ok t) = .next t := rfl
@[simp] theorem attempt_error (s : State) (c : Cause) : attempt s (.error c) = takeFault c s := rfl

theorem attempt_eq_next {s t : State} {x : Except Cause State} :
    attempt s x = .next t ↔ x = .ok t := by
  cases x <;> simp [attempt, takeFault]

theorem attempt_cases (s : State) (x : Except Cause State) :
    (∃ t, x = .ok t ∧ attempt s x = .next t) ∨ ∃ c, x = .error c ∧ attempt s x = takeFault c s := by
  cases x
  · exact .inr ⟨_, rfl, rfl⟩
  · exact .inl ⟨_, rfl, rfl⟩

/-! ## The stack pointer logic (R65) -/

theorem spDec_toNat (s : Byte) : (spDec s).toNat = if s.toNat = 0 then 254 else s.toNat - 1 := by
  revert s; decide

theorem spInc_toNat (s : Byte) :
    (spInc s).toNat = if s.toNat = 255 then 1 else if s.toNat = 254 then 0 else s.toNat + 1 := by
  revert s; decide

theorem spDec_lt (s : Byte) : (spDec s).toNat < 255 := by
  have := s.isLt
  rw [spDec_toNat]
  split <;> omega

theorem spInc_lt (s : Byte) : (spInc s).toNat < 255 := by
  have := s.isLt
  rw [spInc_toNat]
  repeat' split
  all_goals omega

theorem pushAddress_lt (s : State) : pushAddress s < 255 := spDec_lt _

theorem popAddress_lt (s : State) : popAddress s < 256 := s.sp.isLt

/-! ## The ALU and the text of events -/

/-- What the ALU can do: write its first register, or raise for a selector that is not ADD or MUL. -/
theorem alu_cases (op : AluOp) (a b : RegIndex) (s : State) :
    (∃ v, alu op a b s = .ok (s.writeReg a v)) ∨
    (op ≠ .add ∧ op ≠ .mul ∧ alu op a b s = .error (.unsupportedOperation op)) := by
  cases op with
  | add => exact .inl ⟨_, rfl⟩
  | mul => exact .inl ⟨_, rfl⟩
  | other n => exact .inr ⟨nofun, nofun, rfl⟩

theorem aluSum_toNat (x y : Byte) : (aluSum x y).toNat = (x.toNat + y.toNat) % 256 := by
  simp [aluSum, narrow]

theorem aluProduct_toNat (x y : Byte) : (aluProduct x y).toNat = x.toNat * y.toNat % 256 := by
  simp [aluProduct, narrow]

/-- A one-digit numeral. -/
theorem dec_of_lt {n : Nat} (h : n < 10) : dec n = [Nat.digitChar n] :=
  Nat.toDigits_of_lt_base h

/-- A longer numeral is that of the tens, then the last digit. -/
theorem dec_of_ge {n : Nat} (h : 10 ≤ n) : dec n = dec (n / 10) ++ [Nat.digitChar (n % 10)] :=
  Nat.toDigits_of_base_le (by decide) h

@[simp] theorem Event.text_print (v : Byte) : (Event.print v).text = dec v.toNat ++ ['\n'] := rfl

@[simp] theorem outputText_append (xs ys : List Event) :
    outputText (xs ++ ys) = outputText xs ++ outputText ys := List.flatMap_append

@[simp] theorem outputText_singleton (e : Event) : outputText [e] = e.text := by
  simp [outputText]

/-! ## The instructions: what each answers -/

section
variable (s : State) {b b' : Byte} {a a' : RegIndex}

theorem execLoadImmediate_ok (v : Byte) (h : b.toNat = a) :
    execLoadImmediate b v s = .next ((s.writeReg a v).advance 3) := by
  simp [execLoadImmediate, reg_of_eq h, bind, Except.bind, immediate]

theorem execLoadImmediate_fault (v : Byte) (h : 8 ≤ b.toNat) :
    execLoadImmediate b v s = takeFault (.registerIndexFault b) s := by
  simp [execLoadImmediate, reg_of_ge h, bind, Except.bind]

theorem execPrintReg_ok (h : b.toNat = a) :
    execPrintReg b s = .next ((s.emit (.print (s.readReg a))).advance 2) := by
  simp [execPrintReg, reg_of_eq h, bind, Except.bind]

theorem execPrintReg_fault (h : 8 ≤ b.toNat) :
    execPrintReg b s = takeFault (.registerIndexFault b) s := by
  simp [execPrintReg, reg_of_ge h, bind, Except.bind]

theorem execMultiply_ok (h : b.toNat = a) (h' : b'.toNat = a') :
    execMultiply b b' s =
      .next ((s.writeReg a (aluProduct (s.readReg a) (s.readReg a'))).advance 3) := by
  simp [execMultiply, reg_of_eq h, reg_of_eq h', bind, Except.bind, alu]

theorem execMultiply_fault_fst (h : 8 ≤ b.toNat) :
    execMultiply b b' s = takeFault (.registerIndexFault b) s := by
  simp [execMultiply, reg_of_ge h, bind, Except.bind]

theorem execMultiply_fault_snd (h : b.toNat < 8) (h' : 8 ≤ b'.toNat) :
    execMultiply b b' s = takeFault (.registerIndexFault b') s := by
  simp [execMultiply, reg_of_eq (a := ⟨b.toNat, h⟩) rfl, reg_of_ge h', bind, Except.bind]

theorem execPush_ok (h : b.toNat = a) :
    execPush b s = .next (((s.setSp (spDec s.sp)).setMem
        (s.mem.update (pushAddress s) ((s.setSp (spDec s.sp)).readReg a))).advance 2) := by
  have := pushAddress_lt s
  simp [execPush, reg_of_eq h, bind, Except.bind,
    State.store_ok (show pushAddress s < 256 by omega)]

theorem execPush_fault (h : 8 ≤ b.toNat) :
    execPush b s = takeFault (.registerIndexFault b) s := by
  simp [execPush, reg_of_ge h, bind, Except.bind]

theorem execPop_ok (h : b.toNat = a) :
    execPop b s = .next
      (((s.writeReg a (s.mem.cell (popAddress s))).setSp
        (spInc (s.writeReg a (s.mem.cell (popAddress s))).sp)).advance 2) := by
  simp [execPop, reg_of_eq h, bind, Except.bind, State.load_ok (popAddress_lt s)]

theorem execPop_fault (h : 8 ≤ b.toNat) :
    execPop b s = takeFault (.registerIndexFault b) s := by
  simp [execPop, reg_of_ge h, bind, Except.bind]

end

/-- What `exec` can do, said once: the effect of the instruction, its register operands named, or a
register-index fault. -/
theorem exec_cases (i : Instr) (s : State) :
    (i = .halt ∧ exec i s = .next (s.setRun .halted)) ∨
    (∃ b v, ∃ a : RegIndex, i = .loadImmediate b v ∧ b.toNat = a ∧
      exec i s = .next ((s.writeReg a v).advance 3)) ∨
    (∃ b, ∃ a : RegIndex, i = .printReg b ∧ b.toNat = a ∧
      exec i s = .next ((s.emit (.print (s.readReg a))).advance 2)) ∨
    (∃ b b', ∃ a a' : RegIndex, i = .multiply b b' ∧ b.toNat = a ∧ b'.toNat = a' ∧
      exec i s = .next ((s.writeReg a (aluProduct (s.readReg a) (s.readReg a'))).advance 3)) ∨
    (∃ b, ∃ a : RegIndex, i = .push b ∧ b.toNat = a ∧
      exec i s = .next (((s.setSp (spDec s.sp)).setMem
        (s.mem.update (pushAddress s) ((s.setSp (spDec s.sp)).readReg a))).advance 2)) ∨
    (∃ b, ∃ a : RegIndex, i = .pop b ∧ b.toNat = a ∧
      exec i s = .next (((s.writeReg a (s.mem.cell (popAddress s))).setSp
        (spInc (s.writeReg a (s.mem.cell (popAddress s))).sp)).advance 2)) ∨
    (∃ b, 8 ≤ b.toNat ∧ b ∈ i.registerOperands ∧
      exec i s = takeFault (.registerIndexFault b) s) := by
  cases i with
  | halt => exact .inl ⟨rfl, rfl⟩
  | loadImmediate b v =>
    rcases reg_cases b with ⟨a, h, -⟩ | ⟨h, -⟩
    · exact .inr (.inl ⟨b, v, a, rfl, h, execLoadImmediate_ok s v h⟩)
    · exact .inr (.inr (.inr (.inr (.inr (.inr
        ⟨b, h, by simp [Instr.registerOperands], execLoadImmediate_fault s v h⟩)))))
  | printReg b =>
    rcases reg_cases b with ⟨a, h, -⟩ | ⟨h, -⟩
    · exact .inr (.inr (.inl ⟨b, a, rfl, h, execPrintReg_ok s h⟩))
    · exact .inr (.inr (.inr (.inr (.inr (.inr
        ⟨b, h, by simp [Instr.registerOperands], execPrintReg_fault s h⟩)))))
  | multiply b b' =>
    rcases reg_cases b with ⟨a, h, -⟩ | ⟨h, -⟩
    · rcases reg_cases b' with ⟨a', h', -⟩ | ⟨h', -⟩
      · exact .inr (.inr (.inr (.inl ⟨b, b', a, a', rfl, h, h', execMultiply_ok s h h'⟩)))
      · exact .inr (.inr (.inr (.inr (.inr (.inr ⟨b', h', by simp [Instr.registerOperands],
          execMultiply_fault_snd s (by omega) h'⟩)))))
    · exact .inr (.inr (.inr (.inr (.inr (.inr ⟨b, h, by simp [Instr.registerOperands],
        execMultiply_fault_fst s h⟩)))))
  | push b =>
    rcases reg_cases b with ⟨a, h, -⟩ | ⟨h, -⟩
    · exact .inr (.inr (.inr (.inr (.inl ⟨b, a, rfl, h, execPush_ok s h⟩))))
    · exact .inr (.inr (.inr (.inr (.inr (.inr
        ⟨b, h, by simp [Instr.registerOperands], execPush_fault s h⟩)))))
  | pop b =>
    rcases reg_cases b with ⟨a, h, -⟩ | ⟨h, -⟩
    · exact .inr (.inr (.inr (.inr (.inr (.inl ⟨b, a, rfl, h, execPop_ok s h⟩)))))
    · exact .inr (.inr (.inr (.inr (.inr (.inr
        ⟨b, h, by simp [Instr.registerOperands], execPop_fault s h⟩)))))

/-! ## The fetch (R43, R48, R72) -/

theorem fetchDecode_pc_out {s : State} (h : 256 ≤ s.pc) :
    fetchDecode s = .error (.addressFault s.pc) :=
  decodeFrom_error (memRead_error h)

theorem fetchDecode_unrecognised {s : State} (h : s.pc < 256)
    (hr : s.mem.cell s.pc ∉ recognisedOpcodes) :
    fetchDecode s = .ok (.unrecognised (s.mem.cell s.pc)) :=
  decodeFrom_unrecognised (memRead_ok h) hr

/-- The bytes of an encoding, inside the array at `pc`, are fetched as the instruction. -/
theorem fetchDecode_encode {s : State} (i : Instr) (hl : s.pc + i.length ≤ 256)
    (h : ∀ k (hk : k < (encode i).length), s.mem.cell (s.pc + k) = (encode i)[k]) :
    fetchDecode s = .ok (.instr i) :=
  decodeFrom_encode i fun k hk => by
    rw [memRead_ok (by rw [encode_length] at hk; omega), h k hk]

theorem encode_of_fetchDecode {s : State} {i : Instr} (h : fetchDecode s = .ok (.instr i)) :
    s.pc + i.length ≤ 256 ∧
      ∀ k (hk : k < (encode i).length), s.mem.cell (s.pc + k) = (encode i)[k] := by
  have hd := encode_of_decodeFrom h
  refine ⟨?_, fun k hk => (memRead_eq_ok.1 (hd k hk)).2⟩
  have hp := i.length_pos
  have := (memRead_eq_ok.1 (hd (i.length - 1) (by rw [encode_length]; omega))).1
  omega

theorem unrecognised_of_fetchDecode {s : State} {ir : Byte}
    (h : fetchDecode s = .ok (.unrecognised ir)) :
    s.pc < 256 ∧ s.mem.cell s.pc = ir ∧ ir ∉ recognisedOpcodes := by
  obtain ⟨h0, hr⟩ := unrecognised_of_decodeFrom h
  obtain ⟨h1, h2⟩ := memRead_eq_ok.1 h0
  exact ⟨h1, h2, hr⟩

/-- The fetch fails at `pc` outside the array, or at 256 for an operand. -/
theorem error_of_fetchDecode {s : State} {c : Cause} (h : fetchDecode s = .error c) :
    (256 ≤ s.pc ∧ c = .addressFault s.pc) ∨
    (s.pc < 256 ∧ c = .addressFault 256 ∧
      ∃ n, operandCount? (s.mem.cell s.pc) = some n ∧ 256 ≤ s.pc + n) := by
  have key {a : Nat} (h : memRead s.mem a = .error c) : 256 ≤ a ∧ c = .addressFault a := by
    by_cases ha : a < 256
    · rw [memRead_ok ha] at h; cases h
    · rw [memRead_error (by omega)] at h; cases h; exact ⟨by omega, rfl⟩
  rcases error_of_decodeFrom h with h0 | ⟨ir, n, k, h0, hn, hk, he, hj⟩
  · exact .inl (key h0)
  · obtain ⟨h1, h2⟩ := memRead_eq_ok.1 h0
    obtain ⟨h3, rfl⟩ := key he
    have h4 : s.pc + k < 256 := by
      rcases k with - | k
      · exact h1
      · obtain ⟨b, hb⟩ := hj k (by omega)
        exact (memRead_eq_ok.1 hb).1
    refine .inr ⟨h1, ?_, n, by simpa [← h2] using hn, by omega⟩
    congr 1; omega

theorem fetchDecode_operandOut {s : State} {n : Nat} (h : s.pc < 256)
    (hn : operandCount? (s.mem.cell s.pc) = some n) (ho : 256 ≤ s.pc + n) :
    fetchDecode s = .error (.addressFault 256) := by
  rcases hd : fetchDecode s with c | i | ir
  · rcases error_of_fetchDecode hd with ⟨h1, -⟩ | ⟨-, rfl, -⟩
    · omega
    · rfl
  · obtain ⟨h1, h2⟩ := encode_of_fetchDecode hd
    have h3 := h2 0 (by simp [Instr.length_pos])
    rw [Nat.add_zero] at h3
    rw [h3, operandCount_encode, Option.some.injEq] at hn
    have := i.length_pos
    omega
  · obtain ⟨-, rfl, hr⟩ := unrecognised_of_fetchDecode hd
    exact absurd (mem_recognised_of_operandCount hn) hr

end Sys2Proof.Machine
end

