-- ==== Sys2Proof/Laws/PerInstr.lean ====
section
/-! SUPPORT. Statements about every instruction as data, one lemma per constructor. -/

namespace Sys2Proof.Laws

/-- The encoding is as long as R39 says and begins with an opcode whose operand count is the number
of bytes after it. -/
def EncodingShape.Statement (i : Instr) : Prop :=
  (encode i).length = i.length ∧ (encode i).head?.bind operandCount? = some (i.length - 1)

theorem EncodingShape.halt : EncodingShape.Statement .halt := ⟨rfl, rfl⟩

theorem EncodingShape.loadImmediate (reg value : Byte) :
    EncodingShape.Statement (.loadImmediate reg value) := ⟨rfl, rfl⟩

theorem EncodingShape.printReg (reg : Byte) : EncodingShape.Statement (.printReg reg) := ⟨rfl, rfl⟩

theorem EncodingShape.multiply (regA regB : Byte) :
    EncodingShape.Statement (.multiply regA regB) := ⟨rfl, rfl⟩

theorem EncodingShape.push (reg : Byte) : EncodingShape.Statement (.push reg) := ⟨rfl, rfl⟩

theorem EncodingShape.pop (reg : Byte) : EncodingShape.Statement (.pop reg) := ⟨rfl, rfl⟩

end Sys2Proof.Laws
end

