-- ==== Sys2Proof/Laws/Step.lean ====
section
/-! SUPPORT. What a step can do, said once. -/

namespace Sys2Proof.Machine

theorem step_running {s : State} (h : s.run = .running) :
    step s = match fetchDecode s with
      | .error c => takeFault c s
      | .ok (.unrecognised ir) => execUnrecognised ir s
      | .ok (.instr i) => exec i s := by
  cases s
  cases h
  rfl

theorem step_stopped {s : State} (h : s.run ≠ .running) : step s = .refused (.stopped s.run) := by
  unfold step
  cases hr : s.run <;> simp_all [takeNoStep]

theorem step_instr {s : State} {i : Instr} (h : s.run = .running)
    (hd : fetchDecode s = .ok (.instr i)) : step s = exec i s := by
  rw [step_running h, hd]

theorem step_unrecognised {s : State} (h : s.AtUnrecognised) :
    step s = .next (s.emit (.unknown (s.mem.cell s.pc) s.pc)) := by
  rw [step_running h.1, fetchDecode_unrecognised h.2.1 h.2.2]
  rfl

/-- The outcomes of a step: stopped; a fetch fault; the report of an unrecognised opcode; or the
instruction fetched. -/
theorem step_cases (s : State) :
    (s.run ≠ .running ∧ step s = .refused (.stopped s.run)) ∨
    (s.run = .running ∧ ∃ c, fetchDecode s = .error c ∧ step s = takeFault c s) ∨
    (s.AtUnrecognised ∧ step s = .next (s.emit (.unknown (s.mem.cell s.pc) s.pc))) ∨
    (s.run = .running ∧ ∃ i, fetchDecode s = .ok (.instr i) ∧ step s = exec i s) := by
  by_cases hr : s.run = .running
  swap
  · exact .inl ⟨hr, step_stopped hr⟩
  rcases hd : fetchDecode s with c | i | ir
  · exact .inr (.inl ⟨hr, c, rfl, by rw [step_running hr, hd]⟩)
  · exact .inr (.inr (.inr ⟨hr, i, rfl, step_instr hr hd⟩))
  · obtain ⟨h1, rfl, h3⟩ := unrecognised_of_fetchDecode hd
    have : s.AtUnrecognised := ⟨hr, h1, h3⟩
    exact .inr (.inr (.inl ⟨this, step_unrecognised this⟩))

/-! ## Runs -/

/-- Repeated executions go on at the end as well as at the start. -/
theorem execTimes_succ (i : Instr) (k : Nat) (s : State) :
    execTimes i (k + 1) s = match execTimes i k s with
      | .next t => exec i t
      | .fault r => .fault r
      | .refused r => .refused r := by
  induction k generalizing s with
  | zero =>
    simp only [execTimes]
    cases exec i s <;> rfl
  | succ k ih =>
    rw [execTimes]
    conv_rhs => rw [execTimes]
    cases exec i s
    · exact ih _
    · rfl
    · rfl

@[simp] theorem runFor_zero (s : State) : runFor 0 s = .next s := rfl

theorem runFor_succ (k : Nat) (s : State) :
    runFor (k + 1) s = match step s with
      | .next t => runFor k t
      | .fault r => .fault r
      | .refused r => .refused r := rfl

theorem runFor_succ_next {k : Nat} {s t : State} (h : step s = .next t) :
    runFor (k + 1) s = runFor k t := by
  rw [runFor_succ, h]

theorem Core_run_next (M : Host.Core) {k : Nat} {s t : M.State} (h : M.step s = .next t) :
    M.run (k + 1) s = M.run k t := by
  rw [Host.Core.run, h]

theorem Core_run_fault (M : Host.Core) {k : Nat} {s : M.State} {r : M.Fault}
    (h : M.step s = .fault r) : M.run (k + 1) s = .fault r := by
  rw [Host.Core.run, h]

theorem Core_run_refused (M : Host.Core) {k : Nat} {s : M.State} {r : M.Refusal}
    (h : M.step s = .refused r) : M.run (k + 1) s = .refused r := by
  rw [Host.Core.run, h]

/-- The runs of claims are the runs of the host's machine. -/
theorem core_run_eq (k : Nat) (s : State) : Sys2Proof.core.run k s = runFor k s := by
  induction k generalizing s with
  | zero => rfl
  | succ k ih =>
    rw [runFor_succ]
    rcases h : step s with t | r | r
    · exact (Core_run_next Sys2Proof.core h).trans (ih t)
    · exact Core_run_fault Sys2Proof.core h
    · exact Core_run_refused Sys2Proof.core h

end Sys2Proof.Machine
end

