-- ==== Sys2Proof/Tests/Slice0.lean ====
section
/-! SUPPORT. The model's own tests: well-formedness, decoding of words written out from the spec's
encodings, single steps from the vectors of spec/95_test_vectors.md, and for every statement with
hypotheses a state and operands that meet them. -/

namespace Sys2Proof.Tests

open Sys2Proof.Machine

/-! ## Helpers -/

/-- The reset state with `bytes` stored from `pc` on and some registers set. -/
def at_ (pc : Nat) (bytes : List Byte) (regs : List (RegIndex × Byte) := []) : State :=
  regs.foldl (fun s r => s.writeReg r.1 r.2)
    (({ State.reset with pc := pc } : State).setMem (storeBytes bytes pc []))

/-- The next state of an outcome. -/
def nextOf : Host.Outcome State Fault Refusal → Option State
  | .next t => some t
  | .fault _ => none
  | .refused _ => none

/-- The cause of a fault and the state it leaves. -/
def faultOf : Host.Outcome State Fault Refusal → Option (Cause × State)
  | .next _ => none
  | .fault (.fatal c t) => some (c, t)
  | .refused _ => none

/-! ## Well-formedness: one ill-formed term for each check -/

theorem test_wf_refuses_loadImmediate : Instr.wellFormed (.loadImmediate 8#8 0#8) = false := by decide
theorem test_wf_refuses_printReg : Instr.wellFormed (.printReg 255#8) = false := by decide
theorem test_wf_refuses_multiply_fst : Instr.wellFormed (.multiply 8#8 0#8) = false := by decide
theorem test_wf_refuses_multiply_snd : Instr.wellFormed (.multiply 0#8 8#8) = false := by decide
theorem test_wf_refuses_push : Instr.wellFormed (.push 9#8) = false := by decide
theorem test_wf_refuses_pop : Instr.wellFormed (.pop 128#8) = false := by decide
theorem test_wf_accepts : Instr.wellFormed (.loadImmediate 7#8 255#8) = true := by decide

/-! ## Decoding: words written out bit by bit from R39, R42 -/

theorem test_decode_halt : decodeTableWord 8 0b00000001 = some .halt := by decide
theorem test_decode_loadImmediate :
    decodeTableWord 24 0b11111111_00000011_10000010 = some (.loadImmediate 3#8 255#8) := by decide
theorem test_decode_printReg : decodeTableWord 16 0b00000101_01000111 = some (.printReg 5#8) := by
  decide
theorem test_decode_multiply :
    decodeTableWord 24 0b00000110_00000010_10100010 = some (.multiply 2#8 6#8) := by decide
theorem test_decode_push : decodeTableWord 16 0b00000100_01000101 = some (.push 4#8) := by decide
theorem test_decode_pop : decodeTableWord 16 0b00000111_01000110 = some (.pop 7#8) := by decide
theorem test_decode_operands_zero : decodeTableWord 8 0x82 = some (.loadImmediate 0#8 0#8) := by decide

/-- Vector H7: the neighbours of the six opcodes are no instructions. -/
theorem test_decode_neighbours :
    [0x00, 0x02, 0x44, 0x48, 0x81, 0x83, 0xA1, 0xA3, 0xFF].map (decodeTableWord 8) =
      List.replicate 9 none := by decide

theorem test_decode_truncated : decode [0x82#8, 0#8] = .error (.truncated 2) := by rfl

theorem test_encode_multiply : encode (.multiply 2#8 6#8) = [0xA2#8, 2#8, 6#8] := by decide

/-! ## Single steps: spec/95_test_vectors.md -/

/-- H2: HALT at the last address reads no operand. -/
theorem test_halt_at_255 :
    (nextOf (step (at_ 255 [0x01#8]))).map (fun t => (t.run, t.pc)) = some (.halted, 255) := by decide

/-- H6: there is no ADD opcode. -/
theorem test_unrecognised_A0 :
    (nextOf (step (at_ 3 [0xA0#8]))).map (fun t => (t.out, t.pc, t.run)) =
      some ([.unknown 0xA0#8 3], 3, .running) := by decide

/-- L7: an instruction that ends at 255 leaves `pc = 256`. -/
theorem test_loadImmediate_at_253 :
    (nextOf (step (at_ 253 [0x82#8, 0#8, 5#8]))).map (fun t => (t.readReg 0, t.pc)) =
      some (5#8, 256) := by decide

/-- L9: the address fault comes before the register-index fault. -/
theorem test_loadImmediate_fault_order :
    faultOf (step (at_ 254 [0x82#8, 9#8])) =
      some (.addressFault 256, (at_ 254 [0x82#8, 9#8]).setRun .faulted) := by decide

/-- Q5: the stack pointer is printable. -/
theorem test_printReg_sp :
    (nextOf (step (at_ 0 [0x47#8, 7#8]))).map (fun t => (t.out, t.pc)) =
      some ([.print 255#8], 2) := by decide

/-- Q6: a bad index emits nothing. -/
theorem test_printReg_bad_index :
    faultOf (step (at_ 0 [0x47#8, 8#8])) =
      some (.registerIndexFault 8#8, (at_ 0 [0x47#8, 8#8]).setRun .faulted) := by decide

/-- M9: 255 * 255 = 65025 wraps to 1. -/
theorem test_multiply_wraps :
    (nextOf (step (at_ 0 [0xA2#8, 0#8, 1#8] [(0, 255#8), (1, 255#8)]))).map
      (fun t => (t.readReg 0, t.readReg 1, t.pc)) = some (1#8, 255#8, 3) := by decide

/-- M16: the first operand is checked first. -/
theorem test_multiply_fault_order :
    (faultOf (step (at_ 0 [0xA2#8, 9#8, 10#8]))).map Prod.fst = some (.registerIndexFault 9#8) := by
  decide

/-- K4: from pointer 0 the PUSH lands on 254. -/
theorem test_push_wraps :
    (nextOf (step (at_ 10 [0x45#8, 0#8] [(7, 0#8), (0, 9#8)]))).map
      (fun t => (t.sp, t.mem.cell 254, t.mem.cell 255)) = some (254#8, 9#8, 0#8) := by decide

/-- K5: PUSH r7 stores the new pointer. -/
theorem test_push_r7 :
    (nextOf (step (at_ 0 [0x45#8, 7#8]))).map (fun t => (t.sp, t.mem.cell 254)) =
      some (254#8, 254#8) := by decide

/-- O3: a POP on the empty stack reads cell 255 and leaves pointer 1. -/
theorem test_pop_empty :
    (nextOf (step (at_ 0 [0x46#8, 0#8] [(0, 7#8)]))).map (fun t => (t.readReg 0, t.sp, t.pc)) =
      some (0#8, 1#8, 2) := by decide

/-- O7: POP r7 leaves the popped byte, 254, moved up to 0. -/
theorem test_pop_r7 :
    (nextOf (step ((at_ 0 [0x46#8, 7#8] [(7, 100#8)]).setMem
      [(0, 0x46#8), (1, 7#8), (100, 254#8)]))).map State.sp = some 0#8 := by decide

/-- A4 and A7: the ALU by itself. -/
theorem test_alu_add_wraps :
    ((alu .add 0 1 (at_ 0 [] [(0, 255#8), (1, 255#8)])).toOption.map (·.readReg 0)) = some 254#8 := by
  decide
theorem test_alu_other : alu (.other 2) 0 1 State.reset = .error (.unsupportedOperation (.other 2)) := by
  rfl

/-- The texts of S5 and H3. -/
theorem test_text :
    outputText [.print 40#8, .unknown 255#8 0] =
      "40\nunknown instruction 255 at address 0\n".toList := by decide

/-- A write of MEM_RESET removes the entry. -/
theorem test_memory_canonical :
    Memory.update [(3, 1#8), (5, 2#8)] 3 0#8 = [(5, 2#8)] ∧
      Memory.update [(3, 1#8)] 5 2#8 = [(3, 1#8), (5, 2#8)] := by decide

/-- `withFetchWord` places the instruction the next step runs. -/
theorem test_withFetchWord :
    (nextOf (step (State.reset.withFetchWord 24 0x280082))).map (fun t => (t.readReg 0, t.pc)) =
      some (40#8, 3) := by decide

/-! ## Witnesses: the hypotheses of each statement are met -/

/-- PUSH r0 then POP r1 at 0. -/
def pushPop : State := at_ 0 [0x45#8, 0#8, 0x46#8, 1#8] [(0, 0xAB#8)]

/-- PUSH r0 at 252 with the stack pointer just above the byte after it. -/
def selfStore (v : Byte) : State := at_ 252 [0x45#8, 0#8] [(0, v), (7, 255#8)]

theorem witness_EveryStepKeepsTheInvariant_next : pushPop.Inv ∧ ∃ t, step pushPop = .next t :=
  ⟨by decide, _, rfl⟩
theorem witness_EveryStepKeepsTheInvariant_unknown :
    (at_ 255 [0xFF#8]).Inv ∧ ∃ t, step (at_ 255 [0xFF#8]) = .next t := ⟨by decide, _, rfl⟩
theorem witness_EveryStepKeepsTheInvariant_fault :
    (at_ 256 []).Inv ∧ ∃ c t, step (at_ 256 []) = .fault (.fatal c t) := ⟨by decide, _, _, rfl⟩

theorem witness_LoadWritesTheImageAndNothingElse :
    State.reset.Inv ∧ (List.replicate 256 0x01#8).length ≤ 256 :=
  ⟨by decide, Nat.le_of_eq List.length_replicate⟩
theorem witness_LongImageCannotBeLoaded : 256 < (List.replicate 257 0#8).length := by
  rw [List.length_replicate]; decide
theorem witness_LaunchStateIsResetPlusImage : ([0x01#8] : List Byte).length ≤ 256 := by decide

theorem witness_MemoryPrimitives_inside : Memory.wf [(0, 1#8), (255, 2#8)] ∧ 255 < 256 := by decide
theorem witness_MemoryPrimitives_outside : 256 ≤ 256 := by decide

theorem witness_DecodeAndEncodeAgree :
    decode [0xA2#8, 1#8, 2#8, 3#8] = .ok (.multiply 1#8 2#8, [3#8]) := rfl

/-- An instruction at the top of memory, with a register operand the machine faults on. -/
theorem witness_StepRunsTheDecodedInstruction :
    let s := at_ 254 [0x45#8, 9#8]
    s.run = .running ∧ memRead s.mem (s.pc + 0) = .ok 0x45#8 ∧ memRead s.mem (s.pc + 1) = .ok 9#8 ∧
      decode [0x45#8, 9#8] = .ok (.push 9#8, []) := ⟨rfl, rfl, rfl, rfl⟩
/-- Both sides of the statement, an instruction that ends at the top of memory and a report. -/
theorem witness_OneInstructionIsOneStep :
    step (at_ 255 [0x01#8]) = .next { at_ 255 [0x01#8] with run := .halted } ∧
      step (at_ 255 [0xFF#8]) = .next { at_ 255 [0xFF#8] with out := [.unknown 255#8 255] } ∧
      (at_ 255 [0xFF#8]).AtUnrecognised := ⟨rfl, rfl, by decide⟩
theorem witness_FetchWordIsTheInstructionRunNext :
    (at_ 253 []).Inv ∧ (at_ 253 []).run = .running ∧
      decodeTableWord 24 0x0100A2 = some (.multiply 0#8 1#8) ∧
      (at_ 253 []).pc + (Instr.multiply 0#8 1#8).length ≤ 256 := by decide

/-- The hypothesis of the result statements of LOAD_IMMEDIATE, PRINT_REG, MULTIPLY, POP and of the
printed immediate, at both ends. -/
theorem witness_register_operand :
    (0#8 : Byte).toNat = (0 : RegIndex).val ∧ (7#8 : Byte).toNat = (7 : RegIndex).val := by decide
theorem witness_PushStoresBelowTheStackPointer :
    State.reset.Inv ∧ (7#8 : Byte).toNat = (7 : RegIndex).val := by decide

theorem witness_RegistersChangeOnlyAsTabled :
    (∃ t, exec (.pop 1#8) State.reset = .next t) ∧ ¬ Instr.writes (.pop 1#8) 2 :=
  ⟨⟨_, rfl⟩, by decide⟩
theorem witness_MemoryChangesOnlyAtThePushAddress_others :
    (∃ t, exec (.pop 1#8) State.reset = .next t) ∧ ∀ b, Instr.pop 1#8 ≠ .push b :=
  ⟨⟨_, rfl⟩, fun _ h => nomatch h⟩
theorem witness_MemoryChangesOnlyAtThePushAddress_push :
    State.reset.Inv ∧ (∃ t, exec (.push 1#8) State.reset = .next t) ∧
      255 ≠ pushAddress State.reset := ⟨by decide, ⟨_, rfl⟩, by decide⟩
theorem witness_OutputAndRunStateChangeOnlyByTheirInstruction :
    (∃ t, exec (.multiply 1#8 2#8) State.reset = .next t) ∧
      (∀ b, Instr.multiply 1#8 2#8 ≠ .printReg b) ∧ Instr.multiply 1#8 2#8 ≠ .halt :=
  ⟨⟨_, rfl⟩, (fun _ h => nomatch h), by decide⟩
theorem witness_ProgramCounterAdvancesByTheOperandCount :
    (∃ t, step pushPop = .next t) ∧ ∃ c t, step (at_ 255 [0x47#8]) = .fault (.fatal c t) :=
  ⟨⟨_, rfl⟩, _, _, rfl⟩

theorem witness_BadRegisterOperandFaults : 8 ≤ (8#8 : Byte).toNat ∧ (7#8 : Byte).toNat < 8 := by decide

/-- A state for each of the five conditions of R78, and states at the boundary that meet none. -/
theorem witness_CycleFaultsExactlyAtTheFirstCondition :
    (at_ 256 []).firstFault = some (.addressFault 256) ∧
    (at_ 255 [0x47#8]).firstFault = some (.addressFault 256) ∧
    (at_ 254 [0x82#8, 9#8]).firstFault = some (.addressFault 256) ∧
    (at_ 253 [0xA2#8, 9#8, 10#8]).firstFault = some (.registerIndexFault 9#8) ∧
    (at_ 253 [0xA2#8, 7#8, 10#8]).firstFault = some (.registerIndexFault 10#8) ∧
    (at_ 253 [0x82#8, 7#8, 10#8]).firstFault = none ∧
    (at_ 255 [0x01#8]).firstFault = none ∧ (at_ 255 [0x82#8]).run = .running := by decide
theorem witness_FatalFaultCommitsNothingAndIsTerminal :
    (∃ t, step (at_ 256 []) = .fault (.fatal (.addressFault 256) t)) ∧ (at_ 256 []).Inv :=
  ⟨⟨_, rfl⟩, by decide⟩
theorem witness_StoppedEngineTakesNoStep :
    (State.reset.setRun .halted).run = .halted ∧ (State.reset.setRun .faulted).run = .faulted := by
  decide
theorem witness_OnlyTheHaltOpcodeHalts :
    (∃ t, step (at_ 0 [0x01#8]) = .next t) ∧ ∃ t, step pushPop = .next t := ⟨⟨_, rfl⟩, _, rfl⟩

/-- For UnrecognisedOpcodeIsReported and UnrecognisedOpcodeIsALivelock, at the top of memory. -/
theorem witness_UnrecognisedOpcode :
    let s := at_ 255 [0x00#8]
    s.run = .running ∧ memRead s.mem s.pc = .ok 0x00#8 ∧
      0x00#8 ∉ [0x01#8, 0x82#8, 0x47#8, 0xA2#8, 0x45#8, 0x46#8] := ⟨rfl, rfl, by decide⟩
theorem witness_OutputIsAppendOnly :
    (∃ t, step (at_ 0 [0x47#8, 7#8]) = .next t) ∧ ∃ t, step (at_ 0 [0x00#8]) = .next t :=
  ⟨⟨_, rfl⟩, _, rfl⟩
theorem witness_LoadedImmediate_others : ∀ r v : Byte, Instr.halt ≠ .loadImmediate r v :=
  fun _ _ h => nomatch h

theorem witness_StackPointerStepsModulo255 :
    (1 ≤ (1#8 : Byte).toNat ∧ (1#8 : Byte).toNat ≤ 253) ∧
      (1 ≤ (253#8 : Byte).toNat ∧ (253#8 : Byte).toNat ≤ 253) ∧
      (6#8 : Byte).toNat = (6 : RegIndex).val ∧ (6 : RegIndex) ≠ 7 := by decide
theorem witness_StackPointerIsBelow255AfterPushOrPop :
    (∃ t, exec (.push 7#8) State.reset = .next t) ∧ ∃ t, exec (.pop 7#8) State.reset = .next t :=
  ⟨⟨_, rfl⟩, _, rfl⟩
theorem witness_NoStepChangesAddress255 : pushPop.Inv ∧ ∃ t, step pushPop = .next t :=
  ⟨by decide, _, rfl⟩

theorem witness_PushThenPopRestoresTheValue :
    pushPop.Inv ∧ pushPop.run = .running ∧
    memRead pushPop.mem pushPop.pc = .ok 0x45#8 ∧ memRead pushPop.mem (pushPop.pc + 1) = .ok 0#8 ∧
    memRead pushPop.mem (pushPop.pc + 2) = .ok 0x46#8 ∧ memRead pushPop.mem (pushPop.pc + 3) = .ok 1#8 ∧
    (0#8 : Byte).toNat = (0 : RegIndex).val ∧ (1#8 : Byte).toNat = (1 : RegIndex).val ∧
    (0 : RegIndex) ≠ 7 ∧ (1 : RegIndex) ≠ 7 ∧
    pushAddress pushPop ≠ pushPop.pc + 2 ∧ pushAddress pushPop ≠ pushPop.pc + 3 :=
  ⟨by decide, rfl, rfl, rfl, rfl, rfl, by decide⟩
theorem witness_RepeatedPushesWalkDownTheStack :
    State.reset.Inv ∧ State.reset.sp = 255#8 ∧ (0#8 : Byte).toNat = (0 : RegIndex).val ∧
      1 ≤ 255 ∧ 255 ≤ 255 := by decide

/-- The store lands on the next opcode: a HALT, an unrecognised byte. -/
theorem witness_StoredByteIsFetchedByTheNextCycle (v : Byte) (h : v = 0x01#8 ∨ v = 0xFF#8) :
    (selfStore v).Inv ∧ (selfStore v).run = .running ∧
    memRead (selfStore v).mem (selfStore v).pc = .ok 0x45#8 ∧
    memRead (selfStore v).mem ((selfStore v).pc + 1) = .ok 0#8 ∧
    (0#8 : Byte).toNat = (0 : RegIndex).val ∧
    pushAddress (selfStore v) = (selfStore v).pc + 2 ∧
    v = if (0 : RegIndex) = 7 then spDec (selfStore v).sp else (selfStore v).readReg 0 := by
  rcases h with rfl | rfl <;> exact ⟨by decide, rfl, rfl, rfl, by decide⟩

/-- Two states that differ in a cell no step at them looks at. -/
theorem witness_MemoryIsReadOnlyByFetchAndPop :
    let s := at_ 0 [0x47#8, 0#8]
    let s' := s.setMem (s.mem.update 9 1#8)
    s'.regs = s.regs ∧ s'.pc = s.pc ∧ s'.run = s.run ∧ s'.out = s.out ∧
    memRead s'.mem (s.pc + 0) = memRead s.mem (s.pc + 0) ∧
    memRead s'.mem (s.pc + 1) = memRead s.mem (s.pc + 1) ∧
    memRead s'.mem (s.pc + 2) = memRead s.mem (s.pc + 2) ∧
    memRead s'.mem (popAddress s) = memRead s.mem (popAddress s) ∧
    s'.mem ≠ s.mem ∧ ∃ t, step s = .next t :=
  ⟨rfl, rfl, rfl, rfl, rfl, rfl, rfl, rfl, by decide, _, rfl⟩

/-- The three ends of a run: HALT, a fault, the livelock. -/
theorem witness_RunHaltsFaultsOrLivelocksWithin129Cycles :
    (at_ 0 [0x01#8]).run = .running ∧ (at_ 256 []).run = .running ∧ (at_ 0 []).AtUnrecognised := by
  decide
/-- A present and an absent value of a trace line, at the top of memory and past it. -/
theorem witness_TraceShowsTheTwelveValues :
    (traceSnapshot (at_ 254 [0xAB#8]))[1]? = some (some 0xAB#8) ∧
      (traceSnapshot (at_ 254 []))[3]? = some none ∧ (traceSnapshot (at_ 256 []))[0]? = some none := by
  decide

end Sys2Proof.Tests
end

/-! ## What a completed execution and a completed step are

`Completes` is the meaning of the six instructions where they complete, as a relation;
`exec_eq_next` ties it to `exec` and `step_eq_next` to `step`. Claims about completed steps are then
case splits over its constructors. -/

namespace Sys2Proof

/-- The first register operand, in the order of the checks (R48), that names no register. -/
def Instr.badOperand? (i : Instr) : Option Byte :=
  i.registerOperands.find? fun b => decide (8 ≤ b.toNat)

theorem Instr.of_badOperand {i : Instr} {b : Byte} (h : i.badOperand? = some b) :
    b ∈ i.registerOperands ∧ 8 ≤ b.toNat :=
  ⟨List.mem_of_find?_eq_some h, by simpa using List.find?_some h⟩

end Sys2Proof

namespace Sys2Proof.Machine

/-- The executions that complete: one constructor per instruction, its register operands named
(spec/40_system.md R51, 41_move_io.md R54, R55, 42_alu.md R62, 43_stack.md R66, R67). -/
inductive Completes : Instr → State → State → Prop
  | halt (s : State) : Completes .halt s (s.setRun .halted)
  | loadImmediate (s : State) (v : Byte) {b : Byte} {a : RegIndex} (hb : b.toNat = a) :
    Completes (.loadImmediate b v) s ((s.writeReg a v).advance 3)
  | printReg (s : State) {b : Byte} {a : RegIndex} (hb : b.toNat = a) :
    Completes (.printReg b) s ((s.emit (.print (s.readReg a))).advance 2)
  | multiply (s : State) {b b' : Byte} {a a' : RegIndex} (hb : b.toNat = a) (hb' : b'.toNat = a') :
    Completes (.multiply b b') s
      ((s.writeReg a (aluProduct (s.readReg a) (s.readReg a'))).advance 3)
  | push (s : State) {b : Byte} {a : RegIndex} (hb : b.toNat = a) :
    Completes (.push b) s (((s.setSp (spDec s.sp)).setMem
      (s.mem.update (pushAddress s) ((s.setSp (spDec s.sp)).readReg a))).advance 2)
  | pop (s : State) {b : Byte} {a : RegIndex} (hb : b.toNat = a) :
    Completes (.pop b) s (((s.writeReg a (s.mem.cell (popAddress s))).setSp
      (spInc (s.writeReg a (s.mem.cell (popAddress s))).sp)).advance 2)

variable {i : Instr} {s t : State} {c : Cause}

theorem exec_of_badOperand {b : Byte} (h : i.badOperand? = some b) (s : State) :
    exec i s = takeFault (.registerIndexFault b) s := by
  obtain ⟨hmem, hb⟩ := Instr.of_badOperand h
  cases i with
  | halt => cases h
  | loadImmediate r v => cases List.mem_singleton.1 hmem; exact execLoadImmediate_fault s v hb
  | printReg r => cases List.mem_singleton.1 hmem; exact execPrintReg_fault s hb
  | push r => cases List.mem_singleton.1 hmem; exact execPush_fault s hb
  | pop r => cases List.mem_singleton.1 hmem; exact execPop_fault s hb
  | multiply r r' =>
    by_cases hr : 8 ≤ r.toNat
    · have hfst : (Instr.multiply r r').badOperand? = some r :=
        List.find?_cons_of_pos (decide_eq_true hr)
      cases hfst.symm.trans h
      exact execMultiply_fault_fst s hr
    · have hne : b ≠ r := fun h => hr (h ▸ hb)
      have hsnd : b = r' := by simpa [Instr.registerOperands, hne] using hmem
      cases hsnd
      exact execMultiply_fault_snd s (Nat.not_le.1 hr) hb

theorem exec_completes (h : i.badOperand? = none) (s : State) :
    ∃ t, Completes i s t ∧ exec i s = .next t := by
  rcases exec_cases i s with ⟨rfl, he⟩ | ⟨b, v, a, rfl, hb, he⟩ | ⟨b, a, rfl, hb, he⟩ |
    ⟨b, b', a, a', rfl, hb, hb', he⟩ | ⟨b, a, rfl, hb, he⟩ | ⟨b, a, rfl, hb, he⟩ |
    ⟨b, hbad, hmem, -⟩
  · exact ⟨_, .halt s, he⟩
  · exact ⟨_, .loadImmediate s v hb, he⟩
  · exact ⟨_, .printReg s hb, he⟩
  · exact ⟨_, .multiply s hb hb', he⟩
  · exact ⟨_, .push s hb, he⟩
  · exact ⟨_, .pop s hb, he⟩
  · exact absurd (decide_eq_true hbad) (List.find?_eq_none.1 h b hmem)

/-- `exec` completes, or raises the fault of its first bad operand: which of the two it is depends
on the instruction alone. -/
theorem exec_completes_or_faults (i : Instr) (s : State) :
    (∃ t, Completes i s t ∧ exec i s = .next t) ∨
    ∃ b, i.badOperand? = some b ∧ exec i s = takeFault (.registerIndexFault b) s := by
  cases h : i.badOperand? with
  | none => exact .inl (exec_completes h s)
  | some b => exact .inr ⟨b, rfl, exec_of_badOperand h s⟩

theorem exec_eq_next : exec i s = .next t ↔ Completes i s t := by
  constructor
  · intro h
    rcases exec_completes_or_faults i s with ⟨u, hu, he⟩ | ⟨b, -, he⟩ <;> rw [he] at h <;> cases h
    exact hu
  · intro h
    cases h with
    | halt => rfl
    | loadImmediate _ v hb => exact execLoadImmediate_ok s v hb
    | printReg _ hb => exact execPrintReg_ok s hb
    | multiply _ hb hb' => exact execMultiply_ok s hb hb'
    | push _ hb => exact execPush_ok s hb
    | pop _ hb => exact execPop_ok s hb

theorem exec_ne_refused (r : Refusal) : exec i s ≠ .refused r := by
  intro h
  rcases exec_completes_or_faults i s with ⟨u, -, he⟩ | ⟨b, -, he⟩ <;> rw [he] at h <;> cases h

theorem setRun_faulted_of_exec_fault (h : exec i s = .fault (.fatal c t)) :
    t = s.setRun .faulted := by
  rcases exec_completes_or_faults i s with ⟨u, -, he⟩ | ⟨b, -, he⟩ <;> rw [he] at h <;> cases h
  rfl

/-- A step that answers a next state reports an unrecognised opcode or completes the instruction
fetched. -/
theorem step_eq_next : step s = .next t ↔
    (s.AtUnrecognised ∧ t = s.emit (.unknown (s.mem.cell s.pc) s.pc)) ∨
    (s.run = .running ∧ ∃ i, fetchDecode s = .ok (.instr i) ∧ Completes i s t) := by
  constructor
  · intro h
    rcases step_cases s with ⟨-, hs⟩ | ⟨-, c, -, hs⟩ | ⟨hu, hs⟩ | ⟨hr, i, hd, hs⟩
    · cases hs.symm.trans h
    · cases hs.symm.trans h
    · cases hs.symm.trans h; exact .inl ⟨hu, rfl⟩
    · exact .inr ⟨hr, i, hd, exec_eq_next.1 (hs.symm.trans h)⟩
  · rintro (⟨hu, rfl⟩ | ⟨hr, i, hd, ht⟩)
    · exact step_unrecognised hu
    · rw [step_instr hr hd]; exact exec_eq_next.2 ht

/-- A fault commits nothing but the run state (R79). -/
theorem setRun_faulted_of_step_fault (h : step s = .fault (.fatal c t)) :
    t = s.setRun .faulted := by
  rcases step_cases s with ⟨-, hs⟩ | ⟨-, c, -, hs⟩ | ⟨-, hs⟩ | ⟨-, i, -, hs⟩
  · cases hs.symm.trans h
  · cases hs.symm.trans h; rfl
  · cases hs.symm.trans h
  · exact setRun_faulted_of_exec_fault (hs.symm.trans h)

theorem step_fetch_error (hr : s.run = .running) (hd : fetchDecode s = .error c) :
    step s = takeFault c s := by
  rw [step_running hr, hd]

/-! ## The bytes a completed step has fetched -/

/-- The opcode byte of a fetched instruction, as claims about `pc` spell it. -/
theorem cell_pc_of_fetchDecode (hd : fetchDecode s = .ok (.instr i)) {ir : Byte}
    (h : (encode i)[0]? = some ir) : s.mem.cell s.pc = ir := by
  obtain ⟨hk, rfl⟩ := List.getElem?_eq_some_iff.1 h
  exact (encode_of_fetchDecode hd).2 0 hk

/-- The first operand byte of a fetched instruction. -/
theorem cell_pc_succ_of_fetchDecode (hd : fetchDecode s = .ok (.instr i)) {b : Byte}
    (h : (encode i)[1]? = some b) : s.mem.cell (s.pc + 1) = b := by
  obtain ⟨hk, rfl⟩ := List.getElem?_eq_some_iff.1 h
  exact (encode_of_fetchDecode hd).2 1 hk

theorem pc_lt_of_fetchDecode (hd : fetchDecode s = .ok (.instr i)) : s.pc < 256 := by
  have := i.length_pos
  have := (encode_of_fetchDecode hd).1
  omega

/-- The closed set of R42 as claims write it out. -/
theorem not_mem_recognisedOpcodes {ir : Byte} : ir ∉ recognisedOpcodes ↔
    ir ≠ 0x01#8 ∧ ir ≠ 0x82#8 ∧ ir ≠ 0x47#8 ∧ ir ≠ 0xA2#8 ∧ ir ≠ 0x45#8 ∧ ir ≠ 0x46#8 := by
  simp [recognisedOpcodes, opcodeHalt, opcodeLoadImmediate, opcodePrintReg, opcodeMultiply,
    opcodePush, opcodePop]

theorem regs_getElem?_of_eq {b : Byte} {a : RegIndex} (hb : b.toNat = a) (s : State) :
    s.regs[b.toNat]? = some (s.readReg a) := by
  rw [hb]
  exact Vector.getElem?_eq_getElem a.isLt

/-! ## The invariant (R14, R20, R21) -/

theorem State.Inv.setRun (h : s.Inv) (r : RunState) : (s.setRun r).Inv := h

theorem State.Inv.emit {e : Event} (h : s.Inv) (he : e.legal) : (s.emit e).Inv := by
  obtain ⟨hmem, hpc, hout⟩ := h
  refine ⟨hmem, hpc, fun d hd => ?_⟩
  rcases List.mem_append.1 hd with hd | hd
  · exact hout d hd
  · rwa [List.mem_singleton.1 hd]

theorem State.Inv.advance {n : Nat} (h : s.Inv) (hn : s.pc + n ≤ 256) : (s.advance n).Inv :=
  ⟨h.1, hn, h.2.2⟩

theorem State.Inv.writeReg (h : s.Inv) (a : RegIndex) (v : Byte) : (s.writeReg a v).Inv := h

theorem State.Inv.setSp (h : s.Inv) (v : Byte) : (s.setSp v).Inv := h

theorem State.Inv.setMem_update {a : Nat} (h : s.Inv) (ha : a < 256) (v : Byte) :
    (s.setMem (s.mem.update a v)).Inv :=
  ⟨Memory.wf_update v h.1 ha, h.2⟩

/-- An instruction that lies inside memory leaves `pc` at most 256, so it keeps the invariant. -/
theorem Completes.keeps_inv (ht : Completes i s t) (hl : s.pc + i.length ≤ 256) (h : s.Inv) :
    t.Inv := by
  cases ht with
  | halt => exact h.setRun _
  | loadImmediate _ v hb => exact (h.writeReg _ v).advance hl
  | printReg _ hb => exact (h.emit rfl).advance hl
  | multiply _ hb hb' => exact (h.writeReg _ _).advance hl
  | push _ hb =>
    have hp : pushAddress s < 256 := Nat.lt_succ_of_lt (pushAddress_lt s)
    exact ((h.setSp _).setMem_update hp _).advance hl
  | pop _ hb => exact ((h.writeReg _ _).setSp _).advance hl

theorem step_keeps_inv (h : s.Inv) (hs : step s = .next t) : t.Inv := by
  rcases step_eq_next.1 hs with ⟨⟨-, hpc, -⟩, rfl⟩ | ⟨-, i, hd, ht⟩
  · exact h.emit (decide_eq_true hpc)
  · exact ht.keeps_inv (encode_of_fetchDecode hd).1 h

/-- Settles O3: a completed step by `step_keeps_inv`, a fault since it changes the run state only. -/
theorem everyStepKeepsTheInvariant : Obligations.EveryStepKeepsTheInvariant := by
  refine ⟨fun s t h hs => step_keeps_inv h hs, fun s t c h hs => ?_⟩
  rw [setRun_faulted_of_step_fault hs]
  exact h.setRun _

/-! ## What completed steps change (R12, R15, R16, R21) -/

/-- Settles O19, by the instruction. -/
theorem registersChangeOnlyAsTabled : Obligations.RegistersChangeOnlyAsTabled := by
  intro i s t r h hw
  have ne_of_operand {b : Byte} {a : RegIndex} (hb : b.toNat = a) (h : ¬ b.toNat = r.val) :
      r ≠ a := by rintro rfl; exact h hb
  cases exec_eq_next.1 h with
  | halt => rfl
  | loadImmediate _ v hb => exact State.readReg_writeReg_ne s _ _ v (ne_of_operand hb hw)
  | printReg _ hb => rfl
  | multiply _ hb hb' => exact State.readReg_writeReg_ne s _ _ _ (ne_of_operand hb hw)
  | push _ hb => simp [State.readReg_setSp, show r ≠ Config.spReg from hw]
  | pop _ hb =>
    obtain ⟨ha, hsp⟩ := not_or.1 hw
    rw [State.advance_readReg, State.readReg_setSp, if_neg hsp]
    exact State.readReg_writeReg_ne s _ _ _ (ne_of_operand hb ha)

/-- Settles O22: the opcode byte fetched is that of the instruction that completes. -/
theorem programCounterAdvancesByTheOperandCount :
    Obligations.ProgramCounterAdvancesByTheOperandCount := by
  refine fun s => ⟨fun t hs => ?_, fun c t hs => by rw [setRun_faulted_of_step_fault hs]; rfl⟩
  rcases step_eq_next.1 hs with ⟨⟨-, -, hu⟩, rfl⟩ | ⟨-, i, hd, ht⟩
  · simp [not_mem_recognisedOpcodes.1 hu]
  · have opcode {ir : Byte} := cell_pc_of_fetchDecode hd (ir := ir)
    cases ht with
    | halt => rw [opcode rfl]; rfl
    | loadImmediate _ v hb => rw [opcode rfl]; rfl
    | printReg _ hb => rw [opcode rfl]; rfl
    | multiply _ hb hb' => rw [opcode rfl]; rfl
    | push _ hb => rw [opcode rfl]; rfl
    | pop _ hb => rw [opcode rfl]; rfl

/-- Settles O27: only the constructor of HALT changes the run state. -/
theorem onlyTheHaltOpcodeHalts : Obligations.OnlyTheHaltOpcodeHalts := by
  intro s t hs
  rcases step_eq_next.1 hs with ⟨⟨hr, hpc, hu⟩, rfl⟩ | ⟨hr, i, hd, ht⟩
  · exact ⟨hr, hpc, by simp [not_mem_recognisedOpcodes.1 hu, hr]⟩
  · refine ⟨hr, pc_lt_of_fetchDecode hd, ?_⟩
    have opcode {ir : Byte} := cell_pc_of_fetchDecode hd (ir := ir)
    cases ht with
    | halt => rw [opcode rfl]; rfl
    | loadImmediate _ v hb => rw [opcode rfl]; exact hr
    | printReg _ hb => rw [opcode rfl]; exact hr
    | multiply _ hb hb' => rw [opcode rfl]; exact hr
    | push _ hb => rw [opcode rfl]; exact hr
    | pop _ hb => rw [opcode rfl]; exact hr

/-- Settles O30: only the report and the constructor of PRINT_REG append. -/
theorem outputIsAppendOnly : Obligations.OutputIsAppendOnly := by
  intro s t hs
  rcases step_eq_next.1 hs with ⟨⟨-, -, hu⟩, rfl⟩ | ⟨-, i, hd, ht⟩
  · simp [not_mem_recognisedOpcodes.1 hu]
  · have opcode {ir : Byte} := cell_pc_of_fetchDecode hd (ir := ir)
    cases ht with
    | printReg _ hb =>
      rw [opcode rfl, cell_pc_succ_of_fetchDecode hd rfl, regs_getElem?_of_eq hb]
      rfl
    | halt => rw [opcode rfl]; exact (List.append_nil _).symm
    | loadImmediate _ v hb => rw [opcode rfl]; exact (List.append_nil _).symm
    | multiply _ hb hb' => rw [opcode rfl]; exact (List.append_nil _).symm
    | push _ hb => rw [opcode rfl]; exact (List.append_nil _).symm
    | pop _ hb => rw [opcode rfl]; exact (List.append_nil _).symm

/-- Settles O21, by the instruction: the other updates leave `out` and `run` as they were. -/
theorem outputAndRunStateChangeOnlyByTheirInstruction :
    Obligations.OutputAndRunStateChangeOnlyByTheirInstruction := by
  intro i s t h
  cases exec_eq_next.1 h with
  | halt => exact ⟨fun _ => rfl, fun hne => absurd rfl hne⟩
  | printReg _ hb => exact ⟨fun hne => absurd rfl (hne _), fun _ => rfl⟩
  | loadImmediate _ v hb => exact ⟨fun _ => rfl, fun _ => rfl⟩
  | multiply _ hb hb' => exact ⟨fun _ => rfl, fun _ => rfl⟩
  | push _ hb => exact ⟨fun _ => rfl, fun _ => rfl⟩
  | pop _ hb => exact ⟨fun _ => rfl, fun _ => rfl⟩

/-! ## Earlier output (R21) -/

/-- `s` with earlier output put in front of its own. -/
def State.prependOut (o : List Event) (s : State) : State := { s with out := o ++ s.out }

@[simp] theorem prependOutput_next (o : List Event) (s : State) :
    prependOutput o (.next s) = .next (s.prependOut o) := rfl

@[simp] theorem prependOutput_takeFault (o : List Event) (c : Cause) (s : State) :
    prependOutput o (takeFault c s) = takeFault c (s.prependOut o) := rfl

@[simp] theorem State.prependOut_emit (o : List Event) (s : State) (e : Event) :
    (s.emit e).prependOut o = (s.prependOut o).emit e := by
  simp [State.prependOut, State.emit]

@[simp] theorem State.prependOut_advance (o : List Event) (s : State) (n : Nat) :
    (s.advance n).prependOut o = (s.prependOut o).advance n := rfl

theorem fetchDecode_prependOut (o : List Event) (s : State) :
    fetchDecode (s.prependOut o) = fetchDecode s := rfl

/-- No completed execution reads the output it appends to. -/
theorem Completes.prependOut (o : List Event) (h : Completes i s t) :
    Completes i (s.prependOut o) (t.prependOut o) := by
  cases h with
  | halt => exact .halt _
  | loadImmediate _ v hb => exact .loadImmediate _ v hb
  | printReg _ hb =>
    rw [State.prependOut_advance, State.prependOut_emit]
    exact .printReg (s.prependOut o) hb
  | multiply _ hb hb' => exact .multiply (s.prependOut o) hb hb'
  | push _ hb => exact .push (s.prependOut o) hb
  | pop _ hb => exact .pop (s.prependOut o) hb

theorem exec_prependOut (o : List Event) (i : Instr) (s : State) :
    exec i (s.prependOut o) = prependOutput o (exec i s) := by
  rcases exec_completes_or_faults i s with ⟨t, ht, he⟩ | ⟨b, hb, he⟩
  · rw [he, prependOutput_next]
    exact exec_eq_next.2 (ht.prependOut o)
  · rw [he, prependOutput_takeFault]
    exact exec_of_badOperand hb _

theorem step_prependOut (o : List Event) (s : State) :
    step (s.prependOut o) = prependOutput o (step s) := by
  have hfetch := fetchDecode_prependOut o s
  rcases step_cases s with ⟨hr, hs⟩ | ⟨hr, c, hd, hs⟩ | ⟨hu, hs⟩ | ⟨hr, i, hd, hs⟩ <;> rw [hs]
  · exact step_stopped (s := s.prependOut o) hr
  · rw [prependOutput_takeFault]
    exact step_fetch_error (s := s.prependOut o) hr (hfetch.trans hd)
  · rw [prependOutput_next, State.prependOut_emit]
    exact step_unrecognised (s := s.prependOut o) hu
  · rw [← exec_prependOut]
    exact step_instr (s := s.prependOut o) hr (hfetch.trans hd)

theorem runFor_prependOut (o : List Event) (k : Nat) (s : State) :
    runFor k (s.prependOut o) = prependOutput o (runFor k s) := by
  induction k generalizing s with
  | zero => rfl
  | succ k ih =>
    rw [runFor_succ, runFor_succ, step_prependOut]
    cases step s with
    | next t => exact ih t
    | fault r => rfl
    | refused r => rfl

/-- Settles O31, by induction on the number of steps, each step by `step_prependOut`. -/
theorem outputIsNeverRead : Obligations.OutputIsNeverRead :=
  fun k s o => runFor_prependOut o k s

/-! ## Reset and the stopped engine (R16, R23) -/

theorem State.readReg_reset (i : RegIndex) :
    State.reset.readReg i = if i = 7 then 255#8 else 0#8 := by
  revert i; decide

/-- Settles O1: the registers one by one, memory as the empty list of cells. -/
theorem resetLeavesTheSpecifiedState : Obligations.ResetLeavesTheSpecifiedState :=
  ⟨State.readReg_reset, State.readReg_reset 7, rfl, rfl, rfl, fun _ ha => memRead_ok ha, fun _ => rfl⟩

/-- Settles O2: nothing is listed in memory, nothing is in the output. -/
theorem resetMeetsTheInvariant : Obligations.ResetMeetsTheInvariant :=
  ⟨⟨List.Pairwise.nil, nofun⟩, Nat.zero_le _, nofun⟩

/-- A running engine's step is a next state or a fault. -/
theorem not_running_of_step_refused {r : Refusal} (h : step s = .refused r) : s.run ≠ .running := by
  rcases step_cases s with ⟨hr, -⟩ | ⟨-, c, -, hs⟩ | ⟨-, hs⟩ | ⟨-, i, -, hs⟩
  · exact hr
  · cases hs.symm.trans h
  · cases hs.symm.trans h
  · exact absurd (hs.symm.trans h) (exec_ne_refused r)

/-- Settles O26: HALTED and FAULTED are the run states other than RUNNING. -/
theorem stoppedEngineTakesNoStep : Obligations.StoppedEngineTakesNoStep := by
  refine fun s => ⟨fun h => step_stopped ?_, fun h => ?_⟩
  · rcases h with h | h <;> simp [h]
  · have hne := not_running_of_step_refused h
    cases hr : s.run with
    | running => exact absurd hr hne
    | halted => exact .inl rfl
    | faulted => exact .inr rfl

/-! ## The stack pointer is register 7 (R10, R11, R65) -/

/-- Settles O36: both instructions end with a pointer that `spDec` or `spInc` gives. -/
theorem stackPointerIsBelow255AfterPushOrPop :
    Obligations.StackPointerIsBelow255AfterPushOrPop := by
  rintro s t b (h | h) <;> cases exec_eq_next.1 h
  case inl.push =>
    rw [State.advance_sp, State.setMem_sp, State.sp_setSp]
    exact Nat.le_of_lt_succ (spDec_lt _)
  case inr.pop =>
    rw [State.advance_sp, State.sp_setSp]
    exact Nat.le_of_lt_succ (spInc_lt _)

/-- Settles O37: the value loaded into register 7 is the stack pointer of the next state. -/
theorem writingRegister7MovesTheStack : Obligations.WritingRegister7MovesTheStack := by
  refine ⟨fun s => rfl, fun s v => ⟨_, execLoadImmediate_ok (a := 7) s v rfl, ?_⟩⟩
  have hsp : ((s.writeReg 7 v).advance 3).sp = v := State.readReg_writeReg_self s 7 v
  have hzero : v.toNat = 0 ↔ v = 0#8 := by simp [← BitVec.toNat_inj]
  rw [popAddress, pushAddress, hsp, spDec_toNat]
  exact ⟨rfl, by simp only [hzero]⟩

end Sys2Proof.Machine

/-! ## The family of spec/20_memory.md: who reads and who writes memory

`Completes.memRead_eq` is the one frame rule for writes (R32) and `step_setMem` the one rule for
reads: a step is unchanged by another memory that agrees where the fetch and POP look. -/

namespace Sys2Proof.Machine

variable {i : Instr} {s t : State} {m n : Memory} {a c : Nat} {v : Byte}

/-! ### The primitives over `Memory.update` (R26, R27) -/

/-- Of the array a read sees the one cell it names. -/
theorem memRead_congr (h : m.cell a = n.cell a) : memRead m a = memRead n a := by
  simp only [memRead, h]

theorem cell_eq_of_memRead_eq (h : memRead m a = memRead n a) (ha : a < 256) :
    m.cell a = n.cell a := by
  rw [memRead_ok ha, memRead_ok ha] at h
  exact Except.ok.inj h

theorem memRead_update_self (hm : m.wf) (ha : a < 256) (v : Byte) :
    memRead (m.update a v) a = .ok v := by
  rw [memRead_ok ha, Memory.cell_update hm, if_pos rfl]

theorem memRead_update_ne (hm : m.wf) (hc : c ≠ a) (v : Byte) :
    memRead (m.update a v) c = memRead m c :=
  memRead_congr (by rw [Memory.cell_update hm, if_neg hc.symm])

/-- Settles O7: a write is `Memory.update`, which the two laws above read back. -/
theorem memoryPrimitivesReadAndWriteOneCell : Obligations.MemoryPrimitivesReadAndWriteOneCell := by
  refine ⟨fun m a v hm ha => ?_, fun m a ha => ⟨_, memRead_ok ha⟩,
    fun m a v ha => ⟨memRead_error ha, memWrite_error ha⟩⟩
  exact ⟨m.update a v, memWrite_ok ha, Memory.wf_update v hm ha, memRead_update_self hm ha v,
    fun b hb => memRead_update_ne hm hb v⟩

/-! ### Who writes memory (R31, R32) -/

theorem Completes.mem_eq (ht : Completes i s t) (hi : ∀ b, i ≠ .push b) : t.mem = s.mem := by
  cases ht with
  | push _ hb => exact absurd rfl (hi _)
  | halt => rfl
  | loadImmediate _ v hb => rfl
  | printReg _ hb => rfl
  | multiply _ hb hb' => rfl
  | pop _ hb => rfl

/-- Every completed execution, PUSH included, leaves what is not at the push address. -/
theorem Completes.memRead_eq (ht : Completes i s t) (hm : s.mem.wf) (hc : c ≠ pushAddress s) :
    memRead t.mem c = memRead s.mem c := by
  by_cases hi : ∀ b, i ≠ .push b
  · rw [ht.mem_eq hi]
  · obtain ⟨b, rfl⟩ := not_forall_not.1 hi
    cases ht with
    | push _ hb => exact memRead_update_ne hm hc _

theorem step_memRead_eq (hs : step s = .next t) (hm : s.mem.wf) (hc : c ≠ pushAddress s) :
    memRead t.mem c = memRead s.mem c := by
  rcases step_eq_next.1 hs with ⟨-, rfl⟩ | ⟨-, i, -, ht⟩
  · rfl
  · exact ht.memRead_eq hm hc

/-- Settles O20: the frame of a completed execution, with and without PUSH. -/
theorem memoryChangesOnlyAtThePushAddress : Obligations.MemoryChangesOnlyAtThePushAddress :=
  ⟨fun i s t h hi c => by rw [(exec_eq_next.1 h).mem_eq hi],
    fun b s t hinv h c hc => (exec_eq_next.1 h).memRead_eq hinv.1 hc⟩

/-- Settles O38: the push address is below 255. -/
theorem noStepChangesAddress255 : Obligations.NoStepChangesAddress255 :=
  fun s _ hinv hs => step_memRead_eq hs hinv.1 (pushAddress_lt s).ne'

/-! ### Who reads memory (R32, R43) -/

/-- States that agree in all but memory are one state with its memory replaced. -/
theorem State.eq_setMem {s' : State} (hregs : s'.regs = s.regs) (hpc : s'.pc = s.pc)
    (hrun : s'.run = s.run) (hout : s'.out = s.out) : s' = s.setMem s'.mem := by
  cases s'
  cases hregs; cases hpc; cases hrun; cases hout
  rfl

theorem fetchDecode_setMem (h : ∀ k < 3, memRead m (s.pc + k) = memRead s.mem (s.pc + k)) :
    fetchDecode (s.setMem m) = fetchDecode s :=
  decodeFrom_congr h

theorem State.AtUnrecognised.setMem (hu : s.AtUnrecognised) (h : m.cell s.pc = s.mem.cell s.pc) :
    (s.setMem m).AtUnrecognised := by
  obtain ⟨hr, hpc, hcell⟩ := hu
  exact ⟨hr, hpc, h ▸ hcell⟩

/-- Of memory a completed execution reads the cell POP reads. -/
theorem Completes.setMem (ht : Completes i s t)
    (h : m.cell (popAddress s) = s.mem.cell (popAddress s)) :
    ∃ n, Completes i (s.setMem m) (t.setMem n) := by
  cases ht with
  | halt => exact ⟨m, .halt _⟩
  | loadImmediate _ v hb => exact ⟨m, .loadImmediate _ v hb⟩
  | printReg _ hb => exact ⟨m, .printReg (s.setMem m) hb⟩
  | multiply _ hb hb' => exact ⟨m, .multiply (s.setMem m) hb hb'⟩
  | push _ hb => exact ⟨_, .push (s.setMem m) hb⟩
  | pop _ hb => exact ⟨m, h ▸ .pop (s.setMem m) hb⟩

/-- A completed step does not see a change of memory away from the fetched bytes and the cell POP
reads. -/
theorem step_setMem (hfetch : ∀ k < 3, memRead m (s.pc + k) = memRead s.mem (s.pc + k))
    (hpop : memRead m (popAddress s) = memRead s.mem (popAddress s)) (hs : step s = .next t) :
    ∃ n, step (s.setMem m) = .next (t.setMem n) := by
  rcases step_eq_next.1 hs with ⟨hu, rfl⟩ | ⟨hr, i, hd, ht⟩
  · have hcell : m.cell s.pc = s.mem.cell s.pc :=
      cell_eq_of_memRead_eq (hfetch 0 (by decide)) hu.2.1
    refine ⟨m, ?_⟩
    rw [step_unrecognised (hu.setMem hcell), State.setMem_mem, State.setMem_pc, hcell]
    rfl
  · obtain ⟨n, hn⟩ := ht.setMem (cell_eq_of_memRead_eq hpop (popAddress_lt s))
    exact ⟨n, step_eq_next.2 (.inr ⟨hr, i, (fetchDecode_setMem hfetch).trans hd, hn⟩)⟩

/-- Settles O42: the second state is the first with its memory replaced. -/
theorem memoryIsReadOnlyByFetchAndPop : Obligations.MemoryIsReadOnlyByFetchAndPop := by
  intro s s' t hregs hpc hrun hout hfetch hpop hs
  rw [State.eq_setMem hregs hpc hrun hout]
  obtain ⟨n, hn⟩ := step_setMem hfetch hpop hs
  exact ⟨t.setMem n, hn, rfl, rfl, rfl, rfl⟩

/-! ### Stored bytes are fetched (R37) -/

/-- The step of a running engine where memory reads as an encoding. -/
theorem step_of_memRead_encode (hr : s.run = .running)
    (h : ∀ k (hk : k < (encode i).length), memRead s.mem (s.pc + k) = .ok ((encode i)[k])) :
    step s = exec i s :=
  step_instr hr (decodeFrom_encode i h)

theorem step_of_memRead_halt (hr : s.run = .running) (h : memRead s.mem s.pc = .ok opcodeHalt) :
    step s = .next (s.setRun .halted) :=
  step_of_memRead_encode (i := .halt) hr fun
    | 0, _ => h

theorem step_of_memRead_push (hr : s.run = .running) (h : memRead s.mem s.pc = .ok opcodePush)
    (h' : memRead s.mem (s.pc + 1) = .ok v) : step s = execPush v s :=
  step_of_memRead_encode (i := .push v) hr fun
    | 0, _ => h
    | 1, _ => h'

theorem step_of_memRead_unrecognised (hr : s.run = .running) (h : memRead s.mem s.pc = .ok v)
    (hv : v ∉ recognisedOpcodes) : step s = .next (s.emit (.unknown v s.pc)) := by
  obtain ⟨hpc, rfl⟩ := memRead_eq_ok.1 h
  exact step_unrecognised ⟨hr, hpc, hv⟩

/-- Settles O41: the byte PUSH stores is read back at the next `pc`, and the next step follows from
that read. -/
theorem storedByteIsFetchedByTheNextCycle : Obligations.StoredByteIsFetchedByTheNextCycle := by
  intro s b v a hinv hr hop hreg hb hpush hv
  have hstep := (step_of_memRead_push hr hop hreg).trans (execPush_ok s hb)
  rw [State.readReg_setSp, ← hv] at hstep
  have hread : memRead (s.mem.update (pushAddress s) v) (s.pc + 2) = .ok v :=
    hpush ▸ memRead_update_self hinv.1 (Nat.lt_succ_of_lt (pushAddress_lt s)) v
  refine ⟨_, hstep, hpush.symm, hread, fun hhalt => ?_, fun hu => ?_⟩
  · exact step_of_memRead_halt hr (hread.trans (congrArg _ hhalt))
  · exact step_of_memRead_unrecognised hr hread hu

end Sys2Proof.Machine

/-! ## The family of spec/30_encoding.md: bytes and instructions

A list of bytes decodes to an instruction exactly where it begins with its encoding
(`decodeFrom_byteOf_eq_instr`); `decode`, the table words and the step are read off that. -/

namespace Sys2Proof

variable {bytes rest : List Byte} {i : Instr} {ir : Byte} {nbits w : Nat}

/-! ### The list decoder (R39 to R42, R46) -/

/-- The one decoder over a list: its reads succeed where the list has the byte. -/
theorem decodeFrom_byteOf_eq_instr :
    decodeFrom (byteOf bytes) = .ok (.instr i) ↔ encode i <+: bytes := by
  simp only [List.prefix_iff_getElem?, ← byteOf_eq_ok]
  exact ⟨encode_of_decodeFrom, decodeFrom_encode i⟩

theorem decode_eq_ok_iff_decodeFrom :
    decode bytes = .ok (i, rest) ↔
      decodeFrom (byteOf bytes) = .ok (.instr i) ∧ bytes.drop i.length = rest := by
  unfold decode
  rcases decodeFrom (byteOf bytes) with e | j | ir
  · simp
  · simp only [Except.ok.injEq, Prod.mk.injEq, Decoded.instr.injEq]
    exact and_congr_right fun hj => by rw [hj]
  · simp

/-- Decoding inverts encoding, and only encodings decode. -/
theorem decode_eq_ok : decode bytes = .ok (i, rest) ↔ bytes = encode i ++ rest := by
  rw [decode_eq_ok_iff_decodeFrom, decodeFrom_byteOf_eq_instr, ← encode_length]
  constructor
  · rintro ⟨⟨tail, rfl⟩, rfl⟩
    rw [List.drop_left]
  · rintro rfl
    exact ⟨⟨rest, rfl⟩, List.drop_left⟩

theorem decode_encode_append (i : Instr) (rest : List Byte) :
    decode (encode i ++ rest) = .ok (i, rest) :=
  decode_eq_ok.2 rfl

/-- Settles O8: both directions of `decode_eq_ok`. -/
theorem decodeAndEncodeAgree : Obligations.DecodeAndEncodeAgree :=
  ⟨decode_encode_append, fun _ _ _ => decode_eq_ok.1⟩

theorem decode_unrecognised (h : ir ∉ recognisedOpcodes) (rest : List Byte) :
    decode (ir :: rest) = .error (.unrecognised ir) := by
  unfold decode
  rw [decodeFrom_unrecognised rfl h]

/-- Settles O9: three bytes with a recognised opcode are an encoding and the bytes not used. -/
theorem opcodeMapIsTheClosedSetOfSix : Obligations.OpcodeMapIsTheClosedSetOfSix := by
  intro ir a b
  split_ifs with h1 h2 h3 h4 h5 h6
  · subst h1; exact decode_encode_append .halt [a, b]
  · subst h2; exact decode_encode_append (.loadImmediate a b) []
  · subst h3; exact decode_encode_append (.printReg a) [b]
  · subst h4; exact decode_encode_append (.multiply a b) []
  · subst h5; exact decode_encode_append (.push a) [b]
  · subst h6; exact decode_encode_append (.pop a) [b]
  · exact decode_unrecognised (Machine.not_mem_recognisedOpcodes.2 ⟨h1, h2, h3, h4, h5, h6⟩) [a, b]

/-! ### Table words -/

@[simp] theorem tableBytes_length (nbits w : Nat) : (tableBytes nbits w).length = 3 := by
  simp [tableBytes]

theorem encode_prefix_tableBytes (h : decodeTableWord nbits w = some i) :
    encode i <+: tableBytes nbits w := by
  unfold decodeTableWord at h
  split at h
  case h_1 j rest hd =>
    cases h
    exact ⟨rest, (decode_eq_ok.1 hd).symm⟩
  case h_2 => cases h

/-- Settles O10: nine closed words, each computed by the decoder. -/
theorem writtenOutWordsDecode : Obligations.WrittenOutWordsDecode := by
  unfold Obligations.WrittenOutWordsDecode
  decide

end Sys2Proof

namespace Sys2Proof.Machine

variable {s : State} {m : Memory} {bytes : List Byte} {i : Instr} {base a k : Nat}

/-! ### Bytes at `pc` (R43, R48) -/

/-- The step of a running engine where memory reads as bytes that begin with an encoding. -/
theorem step_of_memRead_prefix (hr : s.run = .running) (hi : encode i <+: bytes)
    (h : ∀ k (hk : k < (encode i).length),
      memRead s.mem (s.pc + k) = .ok (bytes[k]'(hk.trans_le hi.length_le))) :
    step s = exec i s :=
  step_of_memRead_encode hr fun k hk => by rw [h k hk, hi.getElem hk]

/-- Settles O11: bytes that decode to an instruction begin with its encoding. -/
theorem stepRunsTheDecodedInstruction : Obligations.StepRunsTheDecodedInstruction := by
  intro s bytes rest i hr h hd
  have hi : encode i <+: bytes := ⟨rest, (decode_eq_ok.1 hd).symm⟩
  exact step_of_memRead_prefix hr hi fun k hk => h k (hk.trans_le hi.length_le)

/-- Settles O28: the byte read at `pc` is outside the closed set of R42. -/
theorem unrecognisedOpcodeIsReported : Obligations.UnrecognisedOpcodeIsReported :=
  fun _ _ hr h hu => step_of_memRead_unrecognised hr h hu

/-! ### The stand-in for the load (log entry 16) -/

theorem memRead_storeBytes_inside (hm : m.wf) (hk : k < bytes.length) (ha : base + k < 256) :
    memRead (storeBytes bytes base m) (base + k) = .ok bytes[k] := by
  rw [memRead_ok ha, (storeBytes_spec hm bytes base).2 _ ha, if_pos (Nat.le_add_right ..),
    Nat.add_sub_cancel_left, List.getElem?_eq_getElem hk, Option.getD_some]

theorem memRead_storeBytes_outside (hm : m.wf) (ha : a < base ∨ base + bytes.length ≤ a) :
    memRead (storeBytes bytes base m) a = memRead m a := by
  by_cases h : a < 256
  · refine memRead_congr ?_
    rw [(storeBytes_spec hm bytes base).2 a h]
    split
    · rw [List.getElem?_eq_none (by omega), Option.getD_none]
    · rfl
  · rw [memRead_error (Nat.not_lt.1 h), memRead_error (Nat.not_lt.1 h)]

/-- Settles O12: the word's bytes begin with the encoding of the instruction, and those of them that
the instruction has are inside memory, so the step reads them back. -/
theorem fetchWordIsTheInstructionRunNext : Obligations.FetchWordIsTheInstructionRunNext := by
  intro s nbits w i hinv hr hd hfit
  have hi := encode_prefix_tableBytes hd
  refine ⟨step_of_memRead_prefix hr hi fun k hk => ?_, ⟨?_, hinv.2⟩, fun a ha => ?_⟩
  · rw [encode_length] at hk
    exact memRead_storeBytes_inside hinv.1 _ (by omega : s.pc + k < 256)
  · exact (storeBytes_spec hinv.1 _ _).1
  · exact memRead_storeBytes_outside hinv.1 (by rwa [tableBytes_length])

/-! ### Operand bytes (R44, R45) -/

/-- Settles O23: `reg` raises in each of the five, at MULTIPLY's first bad operand. -/
theorem badRegisterOperandFaults : Obligations.BadRegisterOperandFaults :=
  fun s _ _ v hb hc => ⟨execLoadImmediate_fault s v hb, execPrintReg_fault s hb,
    execMultiply_fault_fst s hb, execMultiply_fault_snd s hc hb, execPush_fault s hb,
    execPop_fault s hb⟩

/-- Every operand byte but LOAD_IMMEDIATE's second names a register. -/
theorem tail_encode_eq_registerOperands (hi : ∀ r v, i ≠ .loadImmediate r v) :
    (encode i).tail = i.registerOperands := by
  cases i with
  | loadImmediate r v => exact absurd rfl (hi r v)
  | halt => rfl
  | printReg r => rfl
  | multiply r r' => rfl
  | push r => rfl
  | pop r => rfl

/-- Settles O32: PRINT_REG reads the register LOAD_IMMEDIATE wrote, and its line is added last. -/
theorem loadedImmediateIsPrintedAsItStands : Obligations.LoadedImmediateIsPrintedAsItStands := by
  refine ⟨fun s b v a hb => ?_, fun i hi => tail_encode_eq_registerOperands hi⟩
  have hread : ((s.writeReg a v).advance 3).readReg a = v := State.readReg_writeReg_self s a v
  have hprint := execPrintReg_ok ((s.writeReg a v).advance 3) hb
  rw [hread] at hprint
  refine ⟨_, _, execLoadImmediate_ok s v hb, hread, hprint, rfl, ?_⟩
  simp [dec]

end Sys2Proof.Machine

/-! ## The family of spec/40_system.md: HALT and the livelock

A report keeps the engine at the unrecognised opcode (`State.AtUnrecognised.emit`), so the run
reports again at every step. -/

namespace Sys2Proof.Machine

variable {s : State}

/-- Settles O13: HALT completes with the new run state alone. -/
theorem haltSetsHaltedAndNothingElse : Obligations.HaltSetsHaltedAndNothingElse :=
  fun s => exec_eq_next.2 (.halt s)

/-- The livelock does not depend on what has been output (R53). -/
theorem State.AtUnrecognised.emit (h : s.AtUnrecognised) (e : Event) :
    (s.emit e).AtUnrecognised := h

/-- By induction on the number of steps: the first step reports and stays at the opcode. -/
theorem runFor_unrecognised (h : s.AtUnrecognised) (k : Nat) :
    runFor k s =
      .next { s with out := s.out ++ List.replicate k (.unknown (s.mem.cell s.pc) s.pc) } := by
  induction k generalizing s with
  | zero => rw [runFor_zero, List.replicate_zero, List.append_nil]
  | succ k ih =>
    rw [runFor_succ_next (step_unrecognised h), ih (h.emit _), List.replicate_succ,
      List.append_cons]
    rfl

/-- Settles O29: the byte read at `pc` is the cell there, which `runFor_unrecognised` reports. -/
theorem unrecognisedOpcodeIsALivelock : Obligations.UnrecognisedOpcodeIsALivelock := by
  intro s ir k hr hread hu
  obtain ⟨hpc, rfl⟩ := memRead_eq_ok.1 hread
  exact runFor_unrecognised ⟨hr, hpc, hu⟩ k

end Sys2Proof.Machine

/-! ## The family of spec/41_move_io.md: LOAD_IMMEDIATE, PRINT_REG and the text of events

`dec` is the library's `Nat.toDigits`, whose digits and value the library knows; that it has no
leading zero follows by recursion on the tens. -/

namespace Sys2Proof.Machine

variable {n : Nat}

/-- Settles O14: the constructor of `Completes` for LOAD_IMMEDIATE. -/
theorem loadImmediateWritesTheRegister : Obligations.LoadImmediateWritesTheRegister :=
  fun s _ v _ hb => exec_eq_next.2 (.loadImmediate s v hb)

/-- Settles O15: the constructor of `Completes` for PRINT_REG. -/
theorem printRegEmitsTheRegister : Obligations.PrintRegEmitsTheRegister :=
  fun s _ _ hb => exec_eq_next.2 (.printReg s hb)

theorem dec_ne_nil : dec n ≠ [] := Nat.toDigits_ne_nil

/-- No numeral but that of 0 has a leading zero: a longer one begins as that of its tens does. -/
theorem eq_zero_of_head?_dec (h : (dec n).head? = some '0') : n = 0 := by
  induction n using Nat.strongRecOn with
  | ind n ih =>
    rcases Nat.lt_or_ge n 10 with hlt | hge
    · rw [dec_of_lt hlt, List.head?_singleton] at h
      exact Nat.digitChar_eq_zero.1 (Option.some.inj h)
    · rw [dec_of_ge hge, List.head?_append_of_ne_nil _ dec_ne_nil] at h
      have htens : n / 10 = 0 := ih (n / 10) (by omega) h
      omega

theorem isShortestDecimal_dec (n : Nat) : isShortestDecimal (dec n) n := by
  refine ⟨dec_ne_nil, List.all_eq_true.2 fun c hc => ?_, ?_, fun hhead => ?_⟩
  · exact Nat.isDigit_of_mem_toDigits (by decide) (by decide) hc
  · exact Nat.ofDigitChars_eq_foldl.symm.trans Nat.ofDigitChars_ten_toDigits
  · rw [eq_zero_of_head?_dec hhead]
    exact Nat.toDigits_zero 10

/-- Settles O33: each numeral in a line is a `dec`, the shortest by `isShortestDecimal_dec`. -/
theorem eventTextIsDecimal : Obligations.EventTextIsDecimal :=
  ⟨fun v => ⟨dec v.toNat, isShortestDecimal_dec _, rfl⟩,
    fun op addr => ⟨dec op.toNat, dec addr, isShortestDecimal_dec _, isShortestDecimal_dec _, rfl⟩,
    fun _ _ => List.flatMap_cons, rfl, by decide, by decide⟩

end Sys2Proof.Machine

/-! ## The family of spec/42_alu.md: the ALU and MULTIPLY

An ALU result is an exact sum or product narrowed, and narrowing is reduction modulo 256 (R61,
decision D1: log entry 1). -/

namespace Sys2Proof.Machine

variable (x y : Byte)

theorem aluSum_eq_ofNat_mod : aluSum x y = BitVec.ofNat 8 ((x.toNat + y.toNat) % 256) := by
  rw [← aluSum_toNat, BitVec.ofNat_toNat, BitVec.setWidth_eq]

theorem aluProduct_eq_ofNat_mod : aluProduct x y = BitVec.ofNat 8 (x.toNat * y.toNat % 256) := by
  rw [← aluProduct_toNat, BitVec.ofNat_toNat, BitVec.setWidth_eq]

/-- Settles O34: a write of the narrowed sum, one of the narrowed product, and the fault of every
other selector. -/
theorem aluAddsMultipliesAndRefusesTheRest : Obligations.AluAddsMultipliesAndRefusesTheRest := by
  intro s a b
  refine ⟨?_, ?_, fun n => rfl⟩
  · rw [← aluSum_eq_ofNat_mod]
    rfl
  · rw [← aluProduct_eq_ofNat_mod]
    rfl

/-- Settles O16: MULTIPLY completes with the write of the product, which spares every register but
its first operand. -/
theorem multiplyWritesTheProductModulo256 : Obligations.MultiplyWritesTheProductModulo256 := by
  intro s bA bB a b ha hb
  refine ⟨_, exec_eq_next.2 (.multiply s ha hb), ?_, fun r hr => ?_, rfl, rfl, rfl, rfl⟩
  · rw [State.advance_readReg, State.readReg_writeReg_self, aluProduct_toNat]
  · rw [State.advance_readReg, State.readReg_writeReg_ne s _ _ _ hr]

end Sys2Proof.Machine

/-! ## The family of spec/43_stack.md: the stack pointer, PUSH and POP

The rules about completed PUSHes and POPs (`Completes.push_…`, `Completes.pop_…`) say what each does
to the pointer, to memory and to its register; the push-pop law and the repeated PUSHes chain them. -/

namespace Sys2Proof.Machine

variable {i : Instr} {s t : State} {b : Byte} {a r : RegIndex} {k : Nat}

/-! ### The two functions of the pointer (R65) -/

theorem spDec_eq_mod (p : Byte) : ((spDec p).toNat : Int) = ((p.toNat : Int) - 1) % 255 := by
  have := p.isLt
  rw [spDec_toNat]
  split <;> omega

theorem spInc_eq_mod (p : Byte) : (spInc p).toNat = (p.toNat + 1) % 255 := by
  have := p.isLt
  rw [spInc_toNat]
  split_ifs <;> omega

theorem spDec_eq_sub {p : Byte} (h : 1 ≤ p.toNat) : spDec p = p - 1#8 := by
  apply BitVec.eq_of_toNat_eq
  rw [spDec_toNat, if_neg (Nat.ne_of_gt h)]
  bv_omega

theorem spInc_eq_add {p : Byte} (h : p.toNat ≤ 253) : spInc p = p + 1#8 := by
  apply BitVec.eq_of_toNat_eq
  rw [spInc_eq_mod, Nat.mod_eq_of_lt (by omega)]
  bv_omega

/-- Down and up again lands where it started, but for 255, which no pointer comes back to (R69). -/
theorem spInc_spDec (p : Byte) : spInc (spDec p) = if p = 255#8 then 0#8 else p := by
  split
  case isTrue h => rw [h]; rfl
  case isFalse h =>
    have hp : p.toNat ≠ 255 := fun h' => h (BitVec.eq_of_toNat_eq h')
    apply BitVec.eq_of_toNat_eq
    rw [spInc_eq_mod, spDec_toNat]
    split <;> omega

/-! ### What every completed execution does to `pc`, the run state and the form of memory -/

theorem Completes.pc_eq (ht : Completes i s t) (hi : i ≠ .halt) : t.pc = s.pc + i.length := by
  cases ht with
  | halt => exact absurd rfl hi
  | loadImmediate _ v hb => rfl
  | printReg _ hb => rfl
  | multiply _ hb hb' => rfl
  | push _ hb => rfl
  | pop _ hb => rfl

theorem Completes.run_eq (ht : Completes i s t) (hi : i ≠ .halt) : t.run = s.run :=
  (outputAndRunStateChangeOnlyByTheirInstruction i s t (exec_eq_next.2 ht)).2 hi

/-- Every completed execution keeps the canonical form of memory, wherever `pc` is. -/
theorem Completes.mem_wf (ht : Completes i s t) (hm : s.mem.wf) : t.mem.wf := by
  by_cases hi : ∀ b, i ≠ .push b
  · rwa [ht.mem_eq hi]
  · obtain ⟨b, rfl⟩ := not_forall_not.1 hi
    cases ht with
    | push _ hb => exact Memory.wf_update _ hm (Nat.lt_succ_of_lt (pushAddress_lt s))

/-! ### What PUSH does (R66) -/

theorem Completes.push_sp (ht : Completes (.push b) s t) : t.sp = spDec s.sp := by
  cases ht with
  | push _ hb => rw [State.advance_sp, State.setMem_sp, State.sp_setSp]

/-- The store is at the new pointer, of the register as it is after the move: for PUSH r7 the new
pointer itself (decision D2: log entry 2). -/
theorem Completes.push_memRead (ht : Completes (.push b) s t) (hb : b.toNat = a) (hm : s.mem.wf) :
    memRead t.mem (pushAddress s) = .ok (if a = 7 then t.sp else s.readReg a) := by
  rw [ht.push_sp, ← State.readReg_setSp]
  cases ht with
  | @push _ _ a' hb' =>
    obtain rfl : a = a' := Fin.ext (hb.symm.trans hb')
    exact memRead_update_self hm (Nat.lt_succ_of_lt (pushAddress_lt s)) _

theorem Completes.push_readReg (ht : Completes (.push b) s t) (hr : r ≠ 7) :
    t.readReg r = s.readReg r :=
  registersChangeOnlyAsTabled _ s t r (exec_eq_next.2 ht) hr

/-- Settles O17, from the rules about a completed PUSH. -/
theorem pushStoresBelowTheStackPointer : Obligations.PushStoresBelowTheStackPointer := by
  intro s b a hinv hb
  have ht := Completes.push s hb
  exact ⟨_, exec_eq_next.2 ht, spDec_toNat s.sp, congrArg BitVec.toNat ht.push_sp,
    ht.push_memRead hb hinv.1, fun c hc => ht.memRead_eq hinv.1 hc, fun r hr => ht.push_readReg hr,
    rfl, rfl, rfl⟩

/-! ### What POP does (R67) -/

/-- The pointer moves up from what it is after the register is written: for POP r7 from the popped
byte (decision D2: log entry 2). -/
theorem Completes.pop_sp (ht : Completes (.pop b) s t) (hb : b.toNat = a) :
    t.sp = spInc (if a = 7 then s.mem.cell (popAddress s) else s.sp) := by
  cases ht with
  | @pop _ _ a' hb' =>
    obtain rfl : a = a' := Fin.ext (hb.symm.trans hb')
    rw [State.advance_sp, State.sp_setSp, State.sp_writeReg]

theorem Completes.pop_readReg_self (ht : Completes (.pop b) s t) (hb : b.toNat = a) (ha : a ≠ 7) :
    t.readReg a = s.mem.cell (popAddress s) := by
  cases ht with
  | @pop _ _ a' hb' =>
    obtain rfl : a = a' := Fin.ext (hb.symm.trans hb')
    rw [State.advance_readReg, State.readReg_setSp, if_neg ha, State.readReg_writeReg_self]

theorem Completes.pop_readReg_ne (ht : Completes (.pop b) s t) (hb : b.toNat = a) (hr : r ≠ 7)
    (hra : r ≠ a) : t.readReg r = s.readReg r := by
  refine registersChangeOnlyAsTabled _ s t r (exec_eq_next.2 ht) ?_
  rintro (h | h)
  · exact hra (Fin.ext (h.symm.trans hb))
  · exact hr h

/-- Settles O18: the byte popped is the cell at the pointer, and which pointer moves up depends on
whether it replaced the pointer. -/
theorem popReadsAtTheStackPointer : Obligations.PopReadsAtTheStackPointer := by
  intro s b a hb
  have ht := Completes.pop s hb
  have hsp := ht.pop_sp hb
  refine ⟨_, _, exec_eq_next.2 ht, memRead_ok (popAddress_lt s), fun ha => ⟨?_, ?_⟩, fun ha => ?_,
    fun r hr hra => ht.pop_readReg_ne hb hr hra, fun c => rfl, rfl, rfl, rfl⟩
  · exact ht.pop_readReg_self hb ha
  · rw [hsp, if_neg ha, spInc_eq_mod]
  · rw [hsp, if_pos ha, spInc_eq_mod]
    rfl

/-- Settles O35: the two closed forms, the rows of the table, and the pointer after PUSH and POP. -/
theorem stackPointerStepsModulo255 : Obligations.StackPointerStepsModulo255 := by
  refine ⟨fun p => ⟨spDec_eq_mod p, ?_, Nat.le_of_lt_succ (spDec_lt p),
    Nat.le_of_lt_succ (spInc_lt p), ?_, ?_, ?_, ?_⟩, fun s b a hb => ⟨?_, fun ha => ?_⟩⟩
  · rw [spInc_eq_mod]
    rfl
  · rintro rfl
    decide
  · rintro ⟨hlo, hhi⟩
    exact ⟨spDec_eq_sub hlo, spInc_eq_add hhi⟩
  · rintro rfl
    decide
  · rintro rfl
    decide
  · have ht := Completes.push s hb
    exact ⟨_, exec_eq_next.2 ht, ht.push_sp⟩
  · have ht := Completes.pop s hb
    refine ⟨_, exec_eq_next.2 ht, ?_⟩
    rw [ht.pop_sp hb, if_neg ha]

/-! ### The push-pop law (R69) -/

theorem step_of_memRead_pop (hr : s.run = .running) (h : memRead s.mem s.pc = .ok opcodePop)
    (h' : memRead s.mem (s.pc + 1) = .ok b) : step s = exec (.pop b) s :=
  step_of_memRead_encode (i := .pop b) hr fun
    | 0, _ => h
    | 1, _ => h'

/-- Settles O39: the store spares the POP behind the PUSH, so the second cycle runs it, at the cell
the first one wrote. -/
theorem pushThenPopRestoresTheValue : Obligations.PushThenPopRestoresTheValue := by
  intro s bR bQ r q hinv hrun hpush hbR hpop hbQ hR hQ hr7 hq7 hne hne'
  obtain ⟨u, hu⟩ : ∃ u, Completes (.push bR) s u := ⟨_, .push s hR⟩
  have hpc : u.pc = s.pc + 2 := hu.pc_eq nofun
  have hrun' : u.run = .running := (hu.run_eq nofun).trans hrun
  have hpop' : memRead u.mem u.pc = .ok opcodePop := by
    rw [hpc, hu.memRead_eq hinv.1 hne.symm]
    exact hpop
  have hbQ' : memRead u.mem (u.pc + 1) = .ok bQ := by
    rw [hpc, hu.memRead_eq hinv.1 hne'.symm]
    exact hbQ
  have hstored : memRead u.mem (pushAddress s) = .ok (s.readReg r) := by
    rw [hu.push_memRead hR hinv.1, if_neg hr7]
  obtain ⟨t, ht⟩ : ∃ t, Completes (.pop bQ) u t := ⟨_, .pop u hQ⟩
  have hsp : t.sp = spInc (spDec s.sp) := by rw [ht.pop_sp hQ, if_neg hq7, hu.push_sp]
  have haddr : popAddress u = pushAddress s := congrArg BitVec.toNat hu.push_sp
  have hstep : step s = .next u :=
    (step_of_memRead_push hrun hpush hbR).trans (exec_eq_next.2 hu)
  have hstep' : step u = .next t :=
    (step_of_memRead_pop hrun' hpop' hbQ').trans (exec_eq_next.2 ht)
  refine ⟨t, (runFor_succ_next hstep).trans (runFor_succ_next hstep'), ?_, ?_, ?_, hsp, ?_⟩
  · rw [ht.pop_readReg_self hQ hq7, haddr]
    exact (memRead_eq_ok.1 hstored).2
  · rw [ht.mem_eq nofun, hstored]
  · rw [ht.pc_eq nofun, hpc]
    rfl
  · rw [hsp, spInc_spDec]

/-! ### Repeated PUSHes (R70) -/

/-- The pointer after `k` PUSHes from pointer 255: the first moves it into 0 to 254, where it walks
down and round (R70). -/
def pointerAfterPushes : Nat → Nat
  | 0 => 255
  | k + 1 => 254 - k % 255

theorem pointerAfterPushes_of_le (h : k ≤ 255) : pointerAfterPushes k = 255 - k := by
  cases k with
  | zero => rfl
  | succ k => rw [pointerAfterPushes, Nat.mod_eq_of_lt h]; omega

theorem spDec_pointerAfterPushes {p : Byte} (h : p.toNat = pointerAfterPushes k) :
    (spDec p).toNat = pointerAfterPushes (k + 1) := by
  cases k with
  | zero => rw [spDec_toNat, h]; rfl
  | succ k =>
    rw [pointerAfterPushes] at h ⊢
    rw [spDec_toNat]
    split <;> omega

/-- What `k` PUSHes of register `a` from pointer 255 leave: a pointer, canonical memory, the other
registers, and, while no cell is written twice, the cells from 254 down. -/
structure PushedTimes (a : RegIndex) (k : Nat) (s t : State) : Prop where
  sp_eq : t.sp.toNat = pointerAfterPushes k
  wf : t.mem.wf
  readReg_eq : ∀ r, r ≠ 7 → t.readReg r = s.readReg r
  memRead_eq : k ≤ 255 → ∀ j, 1 ≤ j → j ≤ k →
    memRead t.mem (255 - j) = .ok (if a = 7 then BitVec.ofNat 8 (255 - j) else s.readReg a)

theorem PushedTimes.zero (hm : s.mem.wf) (hsp : s.sp = 255#8) : PushedTimes a 0 s s where
  sp_eq := congrArg BitVec.toNat hsp
  wf := hm
  readReg_eq _ _ := rfl
  memRead_eq _ j hj hj' := absurd hj (by omega)

/-- One more PUSH writes the cell below the ones written before. -/
theorem PushedTimes.succ {u : State} (h : PushedTimes a k s t) (hb : b.toNat = a)
    (hu : Completes (.push b) t u) : PushedTimes a (k + 1) s u where
  sp_eq := by rw [hu.push_sp, spDec_pointerAfterPushes h.sp_eq]
  wf := hu.mem_wf h.wf
  readReg_eq r hr := (hu.push_readReg hr).trans (h.readReg_eq r hr)
  memRead_eq hk j hj hjk := by
    have haddr : pushAddress t = 255 - (k + 1) :=
      (spDec_pointerAfterPushes h.sp_eq).trans (pointerAfterPushes_of_le hk)
    rcases Nat.lt_or_eq_of_le hjk with hlt | rfl
    · rw [hu.memRead_eq h.wf (by omega), h.memRead_eq (by omega) j hj (by omega)]
    · have hsp : u.sp = BitVec.ofNat 8 (255 - (k + 1)) := by
        rw [hu.push_sp, ← haddr, pushAddress, BitVec.ofNat_toNat, BitVec.setWidth_eq]
      rw [← haddr, hu.push_memRead hb h.wf, haddr, hsp]
      split
      case isTrue => rfl
      case isFalse ha => rw [h.readReg_eq a ha]

/-- By induction on the number of PUSHes, the last one taken apart. -/
theorem execTimes_push (hm : s.mem.wf) (hsp : s.sp = 255#8) (hb : b.toNat = a) (k : Nat) :
    ∃ t, execTimes (.push b) k s = .next t ∧ PushedTimes a k s t := by
  induction k with
  | zero => exact ⟨s, rfl, .zero hm hsp⟩
  | succ k ih =>
    obtain ⟨t, ht, hpushed⟩ := ih
    have hu := Completes.push t hb
    refine ⟨_, ?_, hpushed.succ hb hu⟩
    rw [execTimes_succ, ht]
    exact exec_eq_next.2 hu

/-- Settles O40: the pointer and the cells of `PushedTimes`. -/
theorem repeatedPushesWalkDownTheStack : Obligations.RepeatedPushesWalkDownTheStack := by
  intro s b a k hinv hsp hb hk
  obtain ⟨t, ht, hpushed⟩ := execTimes_push hinv.1 hsp hb k
  refine ⟨t, ht, ?_, fun hle => ⟨?_, hpushed.memRead_eq hle⟩⟩
  · obtain ⟨n, rfl⟩ := Nat.exists_eq_add_of_le' hk
    exact hpushed.sp_eq
  · exact hpushed.sp_eq.trans (pointerAfterPushes_of_le hle)

end Sys2Proof.Machine

/-! ## The family of spec/60_exceptions.md: fatal faults and the trace

`State.firstFault` is tied to the fetch in each of its three outcomes; `step_firstFault` then says
what the step of a running engine answers by it, and both claims about fatal faults follow. -/

namespace Sys2Proof.Machine

variable {i : Instr} {s t : State} {c : Cause}

/-! ### The first fault condition and the fetch (R72, R73, R78) -/

/-- The operand bytes claims speak of are those the decoder reads (R39, R43). -/
theorem State.operandBytes_eq (s : State) :
    s.operandBytes = (operandCount? (s.mem.cell s.pc)).getD 0 := by
  unfold State.operandBytes
  generalize s.mem.cell s.pc = ir
  revert ir
  decide

/-- An unrecognised opcode has no register operand to check (R46). -/
theorem State.registerBytes_of_unrecognised (h : s.mem.cell s.pc ∉ recognisedOpcodes) :
    s.registerBytes = [] := by
  obtain ⟨-, hload, hprint, hmul, hpush, hpop⟩ := not_mem_recognisedOpcodes.1 h
  simp only [State.registerBytes, hload, hprint, hmul, hpush, hpop, or_false, if_false]

/-- The register bytes claims speak of are the register operands of the instruction fetched. -/
theorem State.registerBytes_of_fetchDecode (hd : fetchDecode s = .ok (.instr i)) :
    s.registerBytes = i.registerOperands := by
  obtain ⟨-, hcell⟩ := encode_of_fetchDecode hd
  have hop : s.mem.cell s.pc = _ := hcell 0 (by simp [Instr.length_pos])
  unfold State.registerBytes
  rw [hop]
  cases i with
  | halt => rfl
  | loadImmediate r v => rw [hcell 1 (by decide : 1 < 3)]; rfl
  | printReg r => rw [hcell 1 (by decide : 1 < 2)]; rfl
  | multiply r r' => rw [hcell 1 (by decide : 1 < 3), hcell 2 (by decide : 2 < 3)]; rfl
  | push r => rw [hcell 1 (by decide : 1 < 2)]; rfl
  | pop r => rw [hcell 1 (by decide : 1 < 2)]; rfl

/-- The first fault condition where the opcode and its operands are inside memory. -/
theorem State.firstFault_inside (h : s.pc + s.operandBytes < 256) :
    s.firstFault =
      (s.registerBytes.find? fun b => decide (8 ≤ b.toNat)).map .registerIndexFault := by
  rw [State.firstFault, if_neg (by omega), if_neg (by omega)]

theorem State.firstFault_of_fetch_error (hd : fetchDecode s = .error c) :
    s.firstFault = some c := by
  rcases error_of_fetchDecode hd with ⟨hpc, rfl⟩ | ⟨hpc, rfl, n, hn, hout⟩
  · rw [State.firstFault, if_pos hpc]
  · have hbytes : s.operandBytes = n := by rw [State.operandBytes_eq, hn, Option.getD_some]
    rw [State.firstFault, if_neg (by omega), if_pos (by omega)]

theorem State.firstFault_of_unrecognised (hu : s.AtUnrecognised) : s.firstFault = none := by
  obtain ⟨-, (hpc : s.pc < 256), hir⟩ := hu
  have hbytes : s.operandBytes = 0 := by
    rw [State.operandBytes_eq, operandCount_eq_none.2 hir, Option.getD_none]
  rw [State.firstFault_inside (by omega), State.registerBytes_of_unrecognised hir]
  rfl

theorem State.firstFault_of_fetch_instr (hd : fetchDecode s = .ok (.instr i)) :
    s.firstFault = i.badOperand?.map .registerIndexFault := by
  obtain ⟨hlen, hcell⟩ := encode_of_fetchDecode hd
  have hop : s.mem.cell s.pc = _ := hcell 0 (by simp [Instr.length_pos])
  have hbytes : s.operandBytes = i.length - 1 := by
    rw [State.operandBytes_eq, hop, operandCount_encode, Option.getD_some]
  have hpos := i.length_pos
  rw [State.firstFault_inside (by omega), State.registerBytes_of_fetchDecode hd]
  rfl

/-- What a running step answers, by its first fault condition. -/
theorem step_firstFault (hr : s.run = .running) :
    (∃ c, s.firstFault = some c ∧ step s = takeFault c s) ∨
    (s.firstFault = none ∧ ∃ t, step s = .next t) := by
  rcases step_cases s with ⟨hne, -⟩ | ⟨-, c, hd, hs⟩ | ⟨hu, hs⟩ | ⟨-, i, hd, hs⟩
  · exact absurd hr hne
  · exact .inl ⟨c, State.firstFault_of_fetch_error hd, hs⟩
  · exact .inr ⟨State.firstFault_of_unrecognised hu, _, hs⟩
  · have hfirst := State.firstFault_of_fetch_instr hd
    rw [hs]
    cases hbad : i.badOperand? with
    | some b => exact .inl ⟨_, by rw [hfirst, hbad, Option.map_some], exec_of_badOperand hbad s⟩
    | none =>
      obtain ⟨t, -, ht⟩ := exec_completes hbad s
      exact .inr ⟨by rw [hfirst, hbad, Option.map_none], t, ht⟩

/-- Settles O24: the two cases of `step_firstFault`. -/
theorem cycleFaultsExactlyAtTheFirstCondition :
    Obligations.CycleFaultsExactlyAtTheFirstCondition := by
  intro s hr
  rcases step_firstFault hr with ⟨c, hc, hs⟩ | ⟨hnone, hnext⟩
  · refine ⟨fun c' hc' => ?_, fun hnone => ?_⟩
    · cases hc.symm.trans hc'; exact hs
    · cases hc.symm.trans hnone
  · refine ⟨fun c hc => ?_, fun _ => hnext⟩
    cases hnone.symm.trans hc

/-! ### Fatal faults are precise and terminal (R74, R79, R80) -/

theorem running_of_step_fault {f : Fault} (h : step s = .fault f) : s.run = .running := by
  by_contra hr
  cases (step_stopped hr).symm.trans h

/-- A step faults with the first fault condition of its cycle only. -/
theorem firstFault_of_step_fault (h : step s = .fault (.fatal c t)) : s.firstFault = some c := by
  rcases step_firstFault (running_of_step_fault h) with ⟨c', hc', hs⟩ | ⟨-, u, hs⟩
  · cases hs.symm.trans h; exact hc'
  · cases hs.symm.trans h

/-- The causes on the list of R78. -/
theorem State.firstFault_eq_some (h : s.firstFault = some c) :
    (256 ≤ s.pc ∧ c = .addressFault s.pc) ∨ c = .addressFault 256 ∨
      ∃ b, c = .registerIndexFault b := by
  unfold State.firstFault at h
  split at h
  case isTrue hpc => cases h; exact .inl ⟨hpc, rfl⟩
  split at h
  case isTrue => cases h; exact .inr (.inl rfl)
  case isFalse =>
    obtain ⟨b, -, rfl⟩ := Option.map_eq_some_iff.1 h
    exact .inr (.inr ⟨b, rfl⟩)

/-- Settles O25: the cause is on the list of R78, and FAULTED takes no step. -/
theorem fatalFaultCommitsNothingAndIsTerminal :
    Obligations.FatalFaultCommitsNothingAndIsTerminal := by
  intro s t c h
  obtain rfl := setRun_faulted_of_step_fault h
  refine ⟨running_of_step_fault h, rfl, step_stopped (by simp), ?_⟩
  rcases State.firstFault_eq_some (firstFault_of_step_fault h) with
    ⟨hpc, rfl⟩ | rfl | ⟨b, rfl⟩
  · refine ⟨nofun, fun hinv a ha => ?_⟩
    cases ha
    exact Nat.le_antisymm hinv.2.1 hpc
  · refine ⟨nofun, fun _ a ha => ?_⟩
    cases ha
    rfl
  · exact ⟨nofun, nofun⟩

/-! ### The trace (R83) -/

theorem memRead_toOption (m : Memory) (a : Nat) :
    (memRead m a).toOption = if a < 256 then some (m.cell a) else none := by
  unfold memRead
  split <;> rfl

theorem State.regs_toList (s : State) : s.regs.toList = (List.finRange 8).map s.readReg := by
  refine List.ext_getElem (by simp) fun k hk hk' => ?_
  simp [State.readReg]

theorem hexDigit_mem_and_idxOf {n : Nat} (h : n < 16) :
    hexDigit n ∈ upperHexDigits ∧ upperHexDigits.idxOf (hexDigit n) = n := by
  revert n
  decide

/-- Two digits for each byte, of its value in base 16. -/
theorem hexByte_spec (b : Byte) : ∃ high low : Char, hexByte b = [high, low] ∧
    high ∈ upperHexDigits ∧ low ∈ upperHexDigits ∧
    16 * upperHexDigits.idxOf high + upperHexDigits.idxOf low = b.toNat := by
  obtain ⟨hhigh, hhighIdx⟩ := hexDigit_mem_and_idxOf (n := b.toNat / 16) (by omega)
  obtain ⟨hlow, hlowIdx⟩ := hexDigit_mem_and_idxOf (n := b.toNat % 16) (by omega)
  refine ⟨_, _, rfl, hhigh, hlow, ?_⟩
  rw [hhighIdx, hlowIdx, Nat.div_add_mod]

theorem traceTexts_length (s : State) : (traceTexts s).length = 12 := by
  simp [traceTexts, traceSnapshot]

/-- Settles O44: the values by `memRead_toOption` and `State.regs_toList`, the digits by
`hexByte_spec`. -/
theorem traceShowsTheTwelveValues : Obligations.TraceShowsTheTwelveValues := by
  refine ⟨fun s => ?_, fun s => ⟨traceTexts_length s, fun k value hk => ?_⟩, hexByte_spec,
    by decide, by decide⟩
  · simp only [traceSnapshot, memRead_toOption, State.regs_toList]
    rfl
  · rw [traceTexts, List.getElem?_map, hk]
    cases value <;> rfl

end Sys2Proof.Machine

/-! ## The family of spec/70_reset_and_hazards.md: load, launch, bounded runs and the step

`load_ok` says once what the load of an image does, and claims about load and launch are read off
it. `endsNext_or_advances` is the progress of one cycle, from which the bound on runs follows by
induction. -/

namespace Sys2Proof.Machine

variable {s t : State} {i : Instr} {image : List Byte}

/-! ### The load and the launch (R86 to R88) -/

/-- The load replaces memory by one that holds the image from address 0 and is otherwise as before.
It is `memWriteAll_spec` at `LOAD_BASE`, in terms of reads. -/
theorem load_ok (hm : s.mem.wf) (h : image.length ≤ 256) :
    ∃ m, load image s = .ok (s.setMem m) ∧ m.wf ∧
      (∀ (a : Nat) (ha : a < image.length), memRead m a = .ok image[a]) ∧
      ∀ a, image.length ≤ a → memRead m a = memRead s.mem a := by
  obtain ⟨m, hwrite, hwf, hcell⟩ := memWriteAll_spec hm image 0 (by omega)
  simp only [Nat.zero_le, if_true, Nat.sub_zero] at hcell
  refine ⟨m, Except_bind_eq_ok.2 ⟨m, hwrite, rfl⟩, hwf, fun a ha => ?_, fun a ha => ?_⟩
  · rw [memRead_ok (by omega), hcell, List.getElem?_eq_getElem ha, Option.getD_some]
  · exact memRead_congr (by rw [hcell, List.getElem?_eq_none ha, Option.getD_none])

/-- The empty image leaves the reset state, which is the livelock on the opcode 0x00 at once. -/
theorem reset_atUnrecognised : State.reset.AtUnrecognised := by decide

/-- Settles O4: `load_ok`, and the empty image launched, which writes nothing. -/
theorem loadWritesTheImageAndNothingElse : Obligations.LoadWritesTheImageAndNothingElse := by
  refine ⟨fun image s hinv hlen => ?_, State.reset, rfl, reset_atUnrecognised, rfl,
    fun a ha => memRead_ok ha, rfl⟩
  obtain ⟨m, hload, hwf, hinside, houtside⟩ := load_ok hinv.1 hlen
  exact ⟨s.setMem m, hload, ⟨hwf, hinv.2⟩, rfl, rfl, rfl, rfl, hinside, houtside⟩

/-- Settles O5: the run of writes fails at the first address outside memory. -/
theorem longImageCannotBeLoaded : Obligations.LongImageCannotBeLoaded := fun image s h =>
  have hwrite : memWriteAll image Config.loadBase s.mem = .error (.addressFault 256) :=
    memWriteAll_error image 0 (by decide) (by omega)
  Except_bind_eq_error.2 (.inl hwrite)

/-- Settles O6: `load_ok` at the reset state. -/
theorem launchStateIsResetPlusImage : Obligations.LaunchStateIsResetPlusImage := by
  intro image s hlen
  have hinv := resetMeetsTheInvariant
  obtain ⟨m, hload, hwf, hinside, houtside⟩ := load_ok hinv.1 hlen
  exact ⟨State.reset.setMem m, hload, ⟨hwf, hinv.2⟩, hinside,
    fun a ha hlt => (houtside a ha).trans (memRead_ok hlt), State.readReg_reset, rfl, rfl, rfl⟩

/-! ### Runs are bounded (R89) -/

/-- The next cycle of the engine halts or faults, or the engine is in the livelock. -/
def State.EndsNext (s : State) : Prop :=
  (∃ t, step s = .next t ∧ t.Final) ∨ (∃ c t, step s = .fault (.fatal c t)) ∨ s.AtUnrecognised

theorem endsNext_of_pc_out (hr : s.run = .running) (hpc : 256 ≤ s.pc) : s.EndsNext :=
  .inr (.inl ⟨_, _, step_fetch_error hr (fetchDecode_pc_out hpc)⟩)

/-- HALT is the one instruction of a single byte (R39). -/
theorem two_le_length (hi : i ≠ .halt) : 2 ≤ i.length := by
  cases i with
  | halt => exact absurd rfl hi
  | loadImmediate r v => exact Nat.le_succ 2
  | printReg r => exact Nat.le_refl 2
  | multiply r r' => exact Nat.le_succ 2
  | push r => exact Nat.le_refl 2
  | pop r => exact Nat.le_refl 2

/-- A cycle that is not the last one moves `pc` up by 2 at least: it completes an instruction other
than HALT. -/
theorem endsNext_or_advances (hr : s.run = .running) :
    s.EndsNext ∨ ∃ t, step s = .next t ∧ t.run = .running ∧ s.pc + 2 ≤ t.pc := by
  rcases step_firstFault hr with ⟨c, -, hs⟩ | ⟨-, t, hs⟩
  · exact .inl (.inr (.inl ⟨c, _, hs⟩))
  rcases step_eq_next.1 hs with ⟨hu, -⟩ | ⟨-, i, -, ht⟩
  · exact .inl (.inr (.inr hu))
  by_cases hi : i = .halt
  · subst hi
    cases ht
    exact .inl (.inl ⟨_, hs, rfl⟩)
  · refine .inr ⟨t, hs, (ht.run_eq hi).trans hr, ?_⟩
    rw [ht.pc_eq hi]
    exact Nat.add_le_add_left (two_le_length hi) _

/-- A run meets its end before `pc`, two bytes a cycle, has left memory: by induction on the number
of cycles that may still be needed. -/
theorem runFor_reaches_endsNext (hr : s.run = .running) (n : Nat) (hn : 256 ≤ s.pc + 2 * n) :
    ∃ k t, k ≤ n ∧ runFor k s = .next t ∧ t.run = .running ∧ t.EndsNext := by
  induction n generalizing s with
  | zero => exact ⟨0, s, Nat.le_refl 0, runFor_zero s, hr, endsNext_of_pc_out hr hn⟩
  | succ n ih =>
    rcases endsNext_or_advances hr with hend | ⟨u, hs, hu, hpc⟩
    · exact ⟨0, s, Nat.zero_le _, runFor_zero s, hr, hend⟩
    · obtain ⟨k, t, hk, hrun, ht⟩ := ih hu (by omega)
      exact ⟨k + 1, t, Nat.succ_le_succ hk, (runFor_succ_next hs).trans hrun, ht⟩

/-- Settles O43: 128 cycles of two bytes are all of memory. -/
theorem runHaltsFaultsOrLivelocksWithin129Cycles :
    Obligations.RunHaltsFaultsOrLivelocksWithin129Cycles :=
  fun s hr => runFor_reaches_endsNext hr 128 (Nat.le_add_left 256 s.pc)

/-! ### One instruction is one step (R93) -/

/-- The fetch gives an instruction exactly where memory reads as its encoding (R43). -/
theorem fetchDecode_eq_instr : fetchDecode s = .ok (.instr i) ↔
    ∀ (k : Nat) (hk : k < (encode i).length), memRead s.mem (s.pc + k) = .ok (encode i)[k] :=
  ⟨encode_of_decodeFrom, decodeFrom_encode i⟩

/-- Settles O45: `step_eq_next`, the fetch read as `fetchDecode_eq_instr` and the completion as
`exec_eq_next`. -/
theorem oneInstructionIsOneStep : Obligations.OneInstructionIsOneStep := by
  intro s t
  simp only [step_eq_next, fetchDecode_eq_instr, ← exec_eq_next]
  constructor
  · rintro (⟨hu, ht⟩ | ⟨hr, hi⟩)
    · exact ⟨hu.1, .inl ⟨hu, ht⟩⟩
    · exact ⟨hr, .inr hi⟩
  · rintro ⟨hr, hreport | hi⟩
    · exact .inl hreport
    · exact .inr ⟨hr, hi⟩

end Sys2Proof.Machine
